-- ==== Sys2Proof/Word.lean ====
section
/-! DEFINITION. The two word types of the machine and the names of its two blocks (R1, R2, R7, R46). -/

namespace Sys2Proof

/-- A data word: the width of `in_data`, `out_data` and of every stage register (`DATA_BITS`, R6). -/
abbrev DataWord := BitVec 128

/-- A control word `{rst, in_valid, in_data[127:0]}` (R46). -/
abbrev CtrlWord := BitVec 130

/-- The two blocks of the spec (R1, R2, R4). -/
inductive Block where
  /-- `sorting_network_4w32b` -/
  | sn4w32b
  /-- `sorting_network_6w8b` -/
  | sn6w8b
  deriving DecidableEq, Repr

end Sys2Proof
end

