-- ==== Sys2Proof/Config.lean ====
section
/-! DEFINITION. What is fixed for the machine: the shape of R6's parameter table, and the free values the spec leaves open. -/

namespace Sys2Proof.Config

/-- FREE VALUE, with no body: the `n`-th control word's worth of bits that nothing constrains, one
stream a block. It is read for bits an operation ignores or only carries when their level is
undefined (R104) and for every register bit at power-on (R119). DESIGN CHOICE (log 3), safe. -/
opaque freeWord : Block → Nat → CtrlWord

/-- The columns of the parameter table of R6. -/
structure Params where
  /-- `N`, active elements -/
  n : Nat
  /-- `W`, bits of one element -/
  w : Nat
  /-- `L`, lanes in a data word -/
  l : Nat
  /-- `DATA_BITS` -/
  dataBits : Nat
  /-- `ROUNDS` -/
  rounds : Nat
  /-- the number of compare-and-swap pairs -/
  casCount : Nat
  /-- `LATENCY`, in rising edges -/
  latency : Nat
  /-- `IDX_BITS`, bits of an index that select a lane -/
  idxBits : Nat
  deriving DecidableEq, Repr

end Sys2Proof.Config
end

