-- ==== Sys2Proof/Machine/Operands.lean ====
section
/-! DEFINITION. The parameters of the blocks (R6). The one kind of operand: the elements of a beat (R49). Lanes of a data word and their packing
(R8, R33), and the two beat layouts (R47, R48). -/

namespace Sys2Proof.Machine

/-- The parameter table of R6, both columns. -/
def params : Block → Config.Params
  | .sn4w32b => { n := 4, w := 32, l := 4, dataBits := 128, rounds := 3, casCount := 5, latency := 3, idxBits := 2 }
  | .sn6w8b => { n := 6, w := 8, l := 16, dataBits := 128, rounds := 5, casCount := 12, latency := 5, idxBits := 4 }

/-- `LATENCY` of a block (R6, R121). -/
def latency (b : Block) : Nat := (params b).latency

/-- `lane_W(v, i)`: the field `v[W*i+W-1 : W*i]` (R8). -/
def lane (W : Nat) (v : DataWord) (i : Nat) : BitVec W := v.extractLsb' (W * i) W

/-- `pack_W(e_0, ..., e_{L-1})`: the data word whose lane `i` is `e_i`, that is
`{e_{L-1}, ..., e_1, e_0}` (R8). -/
def pack (W : Nat) : List (BitVec W) → DataWord
  | [] => 0#128
  | e :: es => (pack W es <<< W) ||| e.setWidth 128

/-- The first `n` lanes of a word, lane 0 first. -/
def lanes (W n : Nat) (v : DataWord) : List (BitVec W) := (List.range n).map (lane W v)

/-- The 4w32b beat: element `i` is lane `i` (R47). -/
def beat4 (e0 e1 e2 e3 : BitVec 32) : DataWord := pack 32 [e0, e1, e2, e3]

/-- The padding field of a 6w8b data word, bits 127:48 (R34, R48). -/
def padding (v : DataWord) : BitVec 80 := v.extractLsb' 48 80

/-- The 6w8b beat `{pad, pack_8(e0..e5)}` (R48, R53). -/
def beat6 (e0 e1 e2 e3 e4 e5 : BitVec 8) (pad : BitVec 80) : DataWord :=
  (pad.setWidth 128 <<< 48) ||| pack 8 [e0, e1, e2, e3, e4, e5]

end Sys2Proof.Machine
end

