-- ==== Sys2Proof/Syntax.lean ====
section
/-! DEFINITION. The operations: one constructor per row of `opcode_table.json` (R58). Every field letter
of a row is an argument, the ignored ones too, so that no bit of a control word is lost. -/

namespace Sys2Proof

/-- What a block can be asked to do in one cycle (R50, R58). -/
inductive Instr where
  /-- `SORT4`, R69; fields a, b, c, d: the four elements (R47). -/
  | sort4 (e0 e1 e2 e3 : BitVec 32)
  /-- `NOP4`, R73; field i: `in_data`, ignored. -/
  | nop4 (inData : DataWord)
  /-- `RST4`, R71; fields v, i: `in_valid` and `in_data`, ignored. -/
  | rst4 (inValid : Bool) (inData : DataWord)
  /-- `SORT6B`, R92; fields a to f: the six elements; field x: the padding (R48). -/
  | sort6b (e0 e1 e2 e3 e4 e5 : BitVec 8) (pad : BitVec 80)
  /-- `NOP6`, R98; field i: `in_data`, ignored. -/
  | nop6 (inData : DataWord)
  /-- `RST6`, R94; fields v, i: `in_valid` and `in_data`, ignored. -/
  | rst6 (inValid : Bool) (inData : DataWord)
  deriving DecidableEq, Repr

end Sys2Proof
end

