-- ==== Sys2Proof/WellFormed.lean ====
section
/-! DEFINITION. Which operations belong to which block (R50, R58). An operation's fields are as wide as
its row gives them, and no value of a field is reserved (R51), so the one check is the block. -/

namespace Sys2Proof

/-- The block an operation belongs to (the table of R58). -/
def Instr.block : Instr → Block
  | .sort4 _ _ _ _ => .sn4w32b
  | .nop4 _ => .sn4w32b
  | .rst4 _ _ => .sn4w32b
  | .sort6b _ _ _ _ _ _ _ => .sn6w8b
  | .nop6 _ => .sn6w8b
  | .rst6 _ _ => .sn6w8b

/-- An operation is well-formed for a block when it is one of that block's three (R50). -/
def Instr.wf (b : Block) (i : Instr) : Bool := i.block == b

end Sys2Proof
end

