-- ==== Sys2Proof/Decode.lean ====
section
/-! DEFINITION. The control word's fields, the decoder and after it the encoder (R46, R47, R48, R50, R51). -/

namespace Sys2Proof

open Machine

/-- `CW[129]` (R46). -/
def CtrlWord.rst (cw : CtrlWord) : Bool := cw.getLsbD 129

/-- `CW[128]` (R46). -/
def CtrlWord.inValid (cw : CtrlWord) : Bool := cw.getLsbD 128

/-- `CW[127:0]` (R46). -/
def CtrlWord.inData (cw : CtrlWord) : DataWord := cw.extractLsb' 0 128

/-- `{rst, in_valid, in_data}` (R46). -/
def ctrlWord (rst inValid : Bool) (inData : DataWord) : CtrlWord :=
  (BitVec.ofBool rst).setWidth 130 <<< 129 ||| (BitVec.ofBool inValid).setWidth 130 <<< 128 |||
    inData.setWidth 130

/-- The beat of a 4w32b control word, element by element (R47). -/
def decodeSort4 (d : DataWord) : Instr :=
  .sort4 (lane 32 d 0) (lane 32 d 1) (lane 32 d 2) (lane 32 d 3)

/-- The beat of a 6w8b control word, element by element, with its padding (R48). -/
def decodeSort6b (d : DataWord) : Instr :=
  .sort6b (lane 8 d 0) (lane 8 d 1) (lane 8 d 2) (lane 8 d 3) (lane 8 d 4) (lane 8 d 5) (padding d)

/-- The operation map of R50, total over all control words (R51). -/
def decode (b : Block) (cw : CtrlWord) : Instr :=
  match b, CtrlWord.rst cw, CtrlWord.inValid cw with
  | .sn4w32b, true, v => .rst4 v (CtrlWord.inData cw)
  | .sn4w32b, false, true => decodeSort4 (CtrlWord.inData cw)
  | .sn4w32b, false, false => .nop4 (CtrlWord.inData cw)
  | .sn6w8b, true, v => .rst6 v (CtrlWord.inData cw)
  | .sn6w8b, false, true => decodeSort6b (CtrlWord.inData cw)
  | .sn6w8b, false, false => .nop6 (CtrlWord.inData cw)

/-- Why a number is no operation. -/
inductive DecodeError where
  /-- A control word has 130 bits (R46); the number has a bit at 130 or above. Raised by `decodeNat`. -/
  | widerThanControlWord
  deriving DecidableEq, Repr

/-- Decoding any number: a bit above the control word's 130 is no operation of a block. The written
encoding has its top two bits 0 (R54). -/
def decodeNat (b : Block) (w : Nat) : Except DecodeError Instr :=
  if w < 2 ^ 130 then .ok (decode b (BitVec.ofNat 130 w)) else .error .widerThanControlWord

/-- The control word of an operation, written from the table's bit strings (R46 to R48). -/
def encode : Instr → CtrlWord
  | .sort4 e0 e1 e2 e3 => ctrlWord false true (beat4 e0 e1 e2 e3)
  | .nop4 d => ctrlWord false false d
  | .rst4 v d => ctrlWord true v d
  | .sort6b e0 e1 e2 e3 e4 e5 pad => ctrlWord false true (beat6 e0 e1 e2 e3 e4 e5 pad)
  | .nop6 d => ctrlWord false false d
  | .rst6 v d => ctrlWord true v d

/-- The "mask" of an operation's row of `opcode_table.json` (R50). -/
def tableMask : Instr → CtrlWord
  | .sort4 _ _ _ _ => 0x300000000000000000000000000000000#130
  | .nop4 _ => 0x300000000000000000000000000000000#130
  | .rst4 _ _ => 0x200000000000000000000000000000000#130
  | .sort6b _ _ _ _ _ _ _ => 0x300000000000000000000000000000000#130
  | .nop6 _ => 0x300000000000000000000000000000000#130
  | .rst6 _ _ => 0x200000000000000000000000000000000#130

/-- The "match" of an operation's row of `opcode_table.json` (R50). -/
def tableMatch : Instr → CtrlWord
  | .sort4 _ _ _ _ => 0x100000000000000000000000000000000#130
  | .nop4 _ => 0x000000000000000000000000000000000#130
  | .rst4 _ _ => 0x200000000000000000000000000000000#130
  | .sort6b _ _ _ _ _ _ _ => 0x100000000000000000000000000000000#130
  | .nop6 _ => 0x000000000000000000000000000000000#130
  | .rst6 _ _ => 0x200000000000000000000000000000000#130

/-- The table's word as the given block samples it, its bits above `nbits` 0. -/
def decodeTableWordOf (b : Block) (nbits w : Nat) : Option Instr :=
  match decodeNat b (w % 2 ^ nbits) with
  | .ok i => some i
  | .error _ => none

/-- The table's word as the spec's own block, `sorting_network_4w32b` (R1), samples it. A control word
alone does not say which block samples it: R50 gives the three words of one block to the other too.
DESIGN CHOICE (log 8): the block is 4w32b here; `decodeTableWordOf` takes the block. -/
def decodeTableWord (nbits w : Nat) : Option Instr := decodeTableWordOf .sn4w32b nbits w

end Sys2Proof
end

