-- ==== Sys2Proof/Machine/Flags.lean ====
section
/-! DEFINITION. The blocks have no flags; their only predicates are the per-lane round masks (R24). Here are
the signed comparisons (R9) and the mask of one lane against another (R64, R87). -/

namespace Sys2Proof.Machine

/-- `sval_W(b)`: two's complement reading (R9). -/
def sval {W : Nat} (b : BitVec W) : Int := if b.msb then (b.toNat : Int) - 2 ^ W else b.toNat

/-- `sgt_W(a, b)`: strict, exact signed greater-than (R9). -/
def sgt {W : Nat} (a b : BitVec W) : Bool := decide (sval b < sval a)

/-- `smin_W(a, b)` (R9). -/
def smin {W : Nat} (a b : BitVec W) : BitVec W := if sval a ≤ sval b then a else b

/-- `smax_W(a, b)` (R9). -/
def smax {W : Nat} (a b : BitVec W) : BitVec W := if sval b ≤ sval a then a else b

/-- A lane's mask: `ones_W` where the partner is greater, else 0 (R64, R87). -/
def laneMask {W : Nat} (partner own : BitVec W) : BitVec W :=
  if sgt partner own then BitVec.allOnes W else 0#W

end Sys2Proof.Machine
end

