-- ==== Sys2Proof/Machine/State.lean ====
section
/-! DEFINITION. The state: both blocks' registers as the spec lists them (R18, R19), the environment's queue of
input events (R130, log 1), the counters of the free values (log 3), and whether a block has been booted (R119, R130,
log 10). Reset (R30). -/

namespace Sys2Proof.Machine

/-- Exactly the state of `sorting_network_4w32b` (R18). -/
structure Block4 where
  /-- `V1`: stage 1 holds a beat -/
  v1 : Bool
  /-- `V2`: stage 2 holds a beat -/
  v2 : Bool
  /-- `V3`: stage 3 holds a beat -/
  v3 : Bool
  /-- `S1`: result of round 1 -/
  s1 : DataWord
  /-- `S2`: result of round 2 -/
  s2 : DataWord
  /-- `S3`: result of round 3 -/
  s3 : DataWord
  deriving DecidableEq, Repr

/-- Exactly the state of `sorting_network_6w8b` (R19). -/
structure Block6 where
  /-- `QV1`: stage 1 holds a beat -/
  qv1 : Bool
  /-- `QV2`: stage 2 holds a beat -/
  qv2 : Bool
  /-- `QV3`: stage 3 holds a beat -/
  qv3 : Bool
  /-- `QV4`: stage 4 holds a beat -/
  qv4 : Bool
  /-- `QV5`: stage 5 holds a beat -/
  qv5 : Bool
  /-- `Q1`: result of round 1 -/
  q1 : DataWord
  /-- `Q2`: result of round 2 -/
  q2 : DataWord
  /-- `Q3`: result of round 3 -/
  q3 : DataWord
  /-- `Q4`: result of round 4 -/
  q4 : DataWord
  /-- `Q5`: result of round 5 -/
  q5 : DataWord
  deriving DecidableEq, Repr

/-- What an input wire carries across a rising edge's setup and hold window (R104, R126). -/
inductive Level where
  /-- a stable 0 -/
  | zero
  /-- a stable 1 -/
  | one
  /-- X, Z, or a change inside the window: no defined level -/
  | undef
  deriving DecidableEq, Repr

/-- The input ports as sampled at one rising edge (R20, R21, R46). Bit `i` of `in_data` is undefined where
`inDataUndef` has a 1, and `inData` means nothing there. -/
structure Pins where
  /-- `rst` -/
  rst : Level
  /-- `in_valid` -/
  inValid : Level
  /-- `in_data`, where it is defined -/
  inData : DataWord
  /-- which bits of `in_data` have no defined level -/
  inDataUndef : DataWord
  deriving DecidableEq, Repr

/-- What the environment can do to a block (R15, R117, R130). -/
inductive Event where
  /-- A rising edge of the block's `clk`, with the levels sampled at it. -/
  | edge (b : Block) (p : Pins)
  /-- Power to the block is removed and comes back: all its state is lost (R117, R119). -/
  | powerOn (b : Block)
  deriving DecidableEq, Repr

/-- The whole machine: one instance of each block (R115) and what the environment does next. -/
structure State where
  /-- the registers of `sorting_network_4w32b` -/
  b4 : Block4
  /-- the registers of `sorting_network_6w8b` -/
  b6 : Block6
  /-- the environment's events, the next one first (MODEL's field, log 1) -/
  events : List Event
  /-- which free value the 4w32b block's undefined bits take next (MODEL's field, log 3) -/
  free4 : Nat
  /-- which free value the 6w8b block's undefined bits take next (MODEL's field, log 3) -/
  free6 : Nat
  /-- 4w32b has had a reset edge since its power-on (R119, R120; MODEL's field, log 10) -/
  booted4 : Bool
  /-- 6w8b has had a reset edge since its power-on (R119, R120; MODEL's field, log 10) -/
  booted6 : Bool
  deriving DecidableEq, Repr

/-- Neither block raises an exception, traps or reports an error (R103, R107): there is no fault. -/
inductive Fault where
  deriving DecidableEq, Repr

/-- Why a step has no meaning. "A model refuses such a cycle" (R104). -/
inductive Refusal where
  /-- An operation without a meaning yet. Raised by a refused arm of `exec` only; there is none. Safe. -/
  | notModelled (mnemonic : String)
  /-- `rst` has no defined level at a rising edge (R104, R126). Raised by `samplePins`. Safe. -/
  | undefinedRst (b : Block)
  /-- `in_valid` has no defined level at a rising edge with `rst = 0` (R104, R126). Raised by `samplePins`. Safe. -/
  | undefinedInValid (b : Block)
  /-- A bit of `in_data` that a beat's operation reads has no defined level (R104, R126). Raised by
  `samplePins`. Safe. -/
  | undefinedInData (b : Block)
  deriving DecidableEq, Repr

/-- After reset: every valid bit 0 (R30). R30 gives the stage words no value; 0 is a DESIGN CHOICE (log 2),
as are the empty event queue (log 1) and the counters' 0 (log 3). It is the state after a reset edge, so both blocks
are booted (log 10). -/
def State.reset : State where
  b4 := { v1 := false, v2 := false, v3 := false, s1 := 0#128, s2 := 0#128, s3 := 0#128 }
  b6 := { qv1 := false, qv2 := false, qv3 := false, qv4 := false, qv5 := false,
          q1 := 0#128, q2 := 0#128, q3 := 0#128, q4 := 0#128, q5 := 0#128 }
  events := []
  free4 := 0
  free6 := 0
  booted4 := true
  booted6 := true

end Sys2Proof.Machine
end

