-- ==== Sys2Proof/Machine/Ops.lean ====
section
/-! DEFINITION. The shared operations: one round of index synthesis and permute for both blocks (R65, R88), the
updates of State, power-on (R119), and how a cycle's input becomes a control word (R46, R104).
Taking an exception and returning from one are absent: neither block has any (R103, R107, R111). -/

namespace Sys2Proof.Machine

/-- One round's constant tables (R26): partner permutation `P`, add vector `C`, mask vector `K`, lane 0 first. -/
structure RoundTable (W : Nat) where
  /-- `P_r` -/
  partner : List Nat
  /-- `C_r` -/
  add : List (BitVec W)
  /-- `K_r` -/
  mask : List (BitVec W)
  deriving DecidableEq, Repr

/-- `P_r[i]` -/
def RoundTable.p {W : Nat} (t : RoundTable W) (i : Nat) : Nat := t.partner.getD i 0

/-- `C_r[i]` -/
def RoundTable.c {W : Nat} (t : RoundTable W) (i : Nat) : BitVec W := t.add.getD i 0#W

/-- `K_r[i]` -/
def RoundTable.k {W : Nat} (t : RoundTable W) (i : Nat) : BitVec W := t.mask.getD i 0#W

/-- `m_r[i]` of a word (R64, R87). -/
def maskAt {W : Nat} (t : RoundTable W) (x : DataWord) (i : Nat) : BitVec W :=
  laneMask (lane W x (t.p i)) (lane W x i)

/-- `idx[i] = (C_r[i] + (m[i] AND K_r[i])) mod 2^W` (R65, R88). -/
def indexAt {W : Nat} (t : RoundTable W) (x : DataWord) (i : Nat) : BitVec W :=
  t.c i + (maskAt t x i &&& t.k i)

/-- The lane an index selects: its low `IDX_BITS` bits (R6, R65, R88). -/
def selectedLane {W : Nat} (idxBits : Nat) (idx : BitVec W) : Nat := (idx.extractLsb' 0 idxBits).toNat

/-- One round: every lane `i` of the result is the lane of `x` its index selects (R65, R88). -/
def roundWord {W : Nat} (g : Config.Params) (t : RoundTable W) (x : DataWord) : DataWord :=
  pack W ((List.range g.l).map fun i => lane W x (selectedLane g.idxBits (indexAt t x i)))

/-- Write the registers of 4w32b. -/
def State.setB4 (s : State) (x : Block4) : State := { s with b4 := x }

/-- Write the registers of 6w8b. -/
def State.setB6 (s : State) (x : Block6) : State := { s with b6 := x }

/-- Replace the environment's queue. -/
def State.setEvents (s : State) (es : List Event) : State := { s with events := es }

/-- Which free value a block takes next. -/
def State.free (s : State) : Block → Nat
  | .sn4w32b => s.free4
  | .sn6w8b => s.free6

/-- Move a block's free-value counter. -/
def State.setFree (s : State) (b : Block) (n : Nat) : State :=
  match b with
  | .sn4w32b => { s with free4 := n }
  | .sn6w8b => { s with free6 := n }

/-- Has a block had a reset edge since its power-on (R119, R120; log 10)? -/
def State.booted (s : State) : Block → Bool
  | .sn4w32b => s.booted4
  | .sn6w8b => s.booted6

/-- Mark a block as booted, or as not booted (log 10). -/
def State.setBooted (s : State) (b : Block) (v : Bool) : State :=
  match b with
  | .sn4w32b => { s with booted4 := v }
  | .sn6w8b => { s with booted6 := v }

/-- The 4w32b registers at power-on: every bit unspecified (R31, R119), taken from the free values `n` to `n+2`. -/
def powerOnBlock4 (n : Nat) : Block4 :=
  let w := fun k => Config.freeWord .sn4w32b (n + k)
  { v1 := CtrlWord.inValid (w 0), v2 := CtrlWord.inValid (w 1), v3 := CtrlWord.inValid (w 2),
    s1 := CtrlWord.inData (w 0), s2 := CtrlWord.inData (w 1), s3 := CtrlWord.inData (w 2) }

/-- The 6w8b registers at power-on: every bit unspecified (R31, R119), taken from the free values `n` to `n+4`. -/
def powerOnBlock6 (n : Nat) : Block6 :=
  let w := fun k => Config.freeWord .sn6w8b (n + k)
  { qv1 := CtrlWord.inValid (w 0), qv2 := CtrlWord.inValid (w 1), qv3 := CtrlWord.inValid (w 2),
    qv4 := CtrlWord.inValid (w 3), qv5 := CtrlWord.inValid (w 4),
    q1 := CtrlWord.inData (w 0), q2 := CtrlWord.inData (w 1), q3 := CtrlWord.inData (w 2),
    q4 := CtrlWord.inData (w 3), q5 := CtrlWord.inData (w 4) }

/-- Power removal loses all state of the block, and power-on leaves it unspecified and not booted (R117, R119). -/
def powerOn (b : Block) (s : State) : State :=
  match b with
  | .sn4w32b => ((s.setB4 (powerOnBlock4 s.free4)).setFree .sn4w32b (s.free4 + 3)).setBooted .sn4w32b false
  | .sn6w8b => ((s.setB6 (powerOnBlock6 s.free6)).setFree .sn6w8b (s.free6 + 5)).setBooted .sn6w8b false

/-- The bits of `in_data` that a beat's operation reads: all of them (R47), or the six elements, whose
padding is "only carried through" (R48, R104). -/
def readBits : Block → DataWord
  | .sn4w32b => BitVec.allOnes 128
  | .sn6w8b => 0x0000FFFFFFFFFFFF#128

/-- Every level is defined. -/
def Pins.defined (p : Pins) : Bool :=
  decide (p.rst ≠ .undef) && decide (p.inValid ≠ .undef) && decide (p.inDataUndef = 0#128)

/-- A level as a bit; an undefined one takes the free bit `f`. -/
def Level.bit (f : Bool) : Level → Bool
  | .zero => false
  | .one => true
  | .undef => f

/-- The sampled wires as a control word (R46), each undefined bit taking the free word's bit. -/
def Pins.word (p : Pins) (free : CtrlWord) : CtrlWord :=
  ctrlWord (p.rst.bit (CtrlWord.rst free)) (p.inValid.bit (CtrlWord.inValid free))
    (if p.inDataUndef = 0#128 then p.inData
      else (p.inData &&& ~~~p.inDataUndef) ||| (CtrlWord.inData free &&& p.inDataUndef))

/-- Does the cycle's operation read a wire without a defined level (R104, R126)? `rst` is read at every edge,
`in_valid` when `rst = 0`, the elements of `in_data` when `rst = 0` and `in_valid = 1`. -/
def Pins.refusal (b : Block) (p : Pins) : Option Refusal :=
  match p.rst, p.inValid with
  | .undef, _ => some (.undefinedRst b)
  | .one, _ => none
  | .zero, .undef => some (.undefinedInValid b)
  | .zero, .zero => none
  | .zero, .one => if p.inDataUndef &&& readBits b = 0#128 then none else some (.undefinedInData b)

/-- The control word a block samples, and the counter of its free values after it. -/
def samplePins (b : Block) (p : Pins) (n : Nat) : Except Refusal (CtrlWord × Nat) :=
  match p.refusal b with
  | some r => .error r
  | none => .ok (p.word (Config.freeWord b n), if p.defined then n else n + 1)

/-- The wires of a control word whose levels are all defined. -/
def pinsOf (cw : CtrlWord) : Pins :=
  { rst := if CtrlWord.rst cw then .one else .zero,
    inValid := if CtrlWord.inValid cw then .one else .zero,
    inData := CtrlWord.inData cw,
    inDataUndef := 0#128 }

/-- A rising edge of block `b` at which it samples the defined control word `cw`. -/
def edgeOf (b : Block) (cw : CtrlWord) : Event := .edge b (pinsOf cw)

/-- What the head of the environment's queue asks for. -/
inductive Fetched where
  /-- no rising edge: the clock stands still (R117) -/
  | noEdge
  /-- a block loses its state (R117) -/
  | lost (b : Block) (s : State)
  /-- the cycle has no meaning (R104) -/
  | refuse (r : Refusal)
  /-- a block samples a control word; `s` is the state without the event -/
  | word (b : Block) (cw : CtrlWord) (s : State)
  deriving DecidableEq, Repr

/-- Take the next event off the queue (R15, R46, R104, R117). -/
def fetch (s : State) : Fetched :=
  match s.events with
  | [] => .noEdge
  | .powerOn b :: es => .lost b (s.setEvents es)
  | .edge b p :: es =>
    match samplePins b p (s.free b) with
    | .error r => .refuse r
    | .ok (cw, n) => .word b cw ((s.setEvents es).setFree b n)

end Sys2Proof.Machine
end

