-- ==== Sys2Proof/Machine/Sort4x32.lean ====
section
/-! DEFINITION. The 4 × 32-bit sort family: tables, rounds and `NET4` (R59 to R68), the stage transfers (R70) and
the meanings of SORT4, NOP4, RST4 (R69, R71, R73). -/

namespace Sys2Proof.Machine

/-- The three rounds of 4w32b (R59). -/
inductive Round4 where
  | r1 | r2 | r3
  deriving DecidableEq, Repr

/-- The compare-and-swap pairs of a round, (low lane, high lane) (R61). -/
def pairs4 : Round4 → List (Nat × Nat)
  | .r1 => [(0, 1), (2, 3)]
  | .r2 => [(0, 2), (1, 3)]
  | .r3 => [(1, 2)]

/-- `P_r` (R62), `C_r` and `K_r` (R63). -/
def table4 : Round4 → RoundTable 32
  | .r1 => { partner := [1, 0, 3, 2],
             add := [1#32, 1#32, 3#32, 3#32],
             mask := [0xFFFFFFFF#32, 0xFFFFFFFF#32, 0xFFFFFFFF#32, 0xFFFFFFFF#32] }
  | .r2 => { partner := [2, 3, 0, 1],
             add := [2#32, 3#32, 2#32, 3#32],
             mask := [0xFFFFFFFE#32, 0xFFFFFFFE#32, 0xFFFFFFFE#32, 0xFFFFFFFE#32] }
  | .r3 => { partner := [0, 2, 1, 3],
             add := [0#32, 2#32, 2#32, 3#32],
             mask := [0xFFFFFFFF#32, 0xFFFFFFFF#32, 0xFFFFFFFF#32, 0xFFFFFFFF#32] }

/-- `ROUND4(r, x)` (R65). -/
def round4 (r : Round4) (x : DataWord) : DataWord :=
  roundWord (params .sn4w32b) (table4 r) x

/-- `NET4(x)` (R68). -/
def net4 (x : DataWord) : DataWord := round4 .r3 (round4 .r2 (round4 .r1 x))

/-- The stage advance of 4w32b (R70): a stage loads only when the valid bit feeding it is 1. -/
def Block4.advance (b : Block4) : Block4 :=
  { b with
    s2 := if b.v1 then round4 .r2 b.s1 else b.s2
    v2 := b.v1
    s3 := if b.v2 then round4 .r3 b.s2 else b.s3
    v3 := b.v2 }

/-- A beat enters stage 1 while the others move on (R69, R70). -/
def Block4.enter (x : DataWord) (b : Block4) : Block4 :=
  { b.advance with s1 := round4 .r1 x, v1 := true }

/-- A bubble enters stage 1 while the others move on (R73, R70). -/
def Block4.bubble (b : Block4) : Block4 := { b.advance with v1 := false }

/-- Synchronous reset: the valid bits, and nothing else (R71). -/
def Block4.clear (b : Block4) : Block4 := { b with v1 := false, v2 := false, v3 := false }

/-- `SORT4` (R69). -/
def execSort4 (e0 e1 e2 e3 : BitVec 32) (s : State) : Host.Outcome State Fault Refusal :=
  .next (s.setB4 (s.b4.enter (beat4 e0 e1 e2 e3)))

/-- `NOP4` (R73). -/
def execNop4 (s : State) : Host.Outcome State Fault Refusal := .next (s.setB4 s.b4.bubble)

/-- `RST4` (R71). After this edge the block is booted (R120). -/
def execRst4 (s : State) : Host.Outcome State Fault Refusal :=
  .next ((s.setB4 s.b4.clear).setBooted .sn4w32b true)

end Sys2Proof.Machine
end

