-- ==== Sys2Proof/Machine/Sort6x8.lean ====
section
/-! DEFINITION. The 6 × 8-bit sort family: tables, rounds and `NET6` (R79 to R91), the stage transfers (R93) and
the meanings of SORT6B, NOP6, RST6 (R92, R94, R98). -/

namespace Sys2Proof.Machine

/-- The five rounds of 6w8b (R79). -/
inductive Round6 where
  | r1 | r2 | r3 | r4 | r5
  deriving DecidableEq, Repr

/-- The compare-and-swap pairs of a round, (low lane, high lane) (R81). -/
def pairs6 : Round6 → List (Nat × Nat)
  | .r1 => [(0, 1), (2, 3), (4, 5)]
  | .r2 => [(0, 2), (1, 4), (3, 5)]
  | .r3 => [(0, 1), (2, 3), (4, 5)]
  | .r4 => [(1, 2), (3, 4)]
  | .r5 => [(2, 3)]

/-- The partners of the padding lanes 6 to 15: themselves (R84, R85). -/
def paddingPartners : List Nat := [6, 7, 8, 9, 10, 11, 12, 13, 14, 15]

/-- The add vector's padding lanes (R86). -/
def paddingAdd : List (BitVec 8) := [6#8, 7#8, 8#8, 9#8, 10#8, 11#8, 12#8, 13#8, 14#8, 15#8]

/-- The mask vector's padding lanes: `0xFF` (R86). -/
def paddingMask : List (BitVec 8) := List.replicate 10 0xFF#8

/-- A mask vector of all ones in the active lanes too (R86). -/
def onesMask : List (BitVec 8) := List.replicate 6 0xFF#8 ++ paddingMask

/-- `P_r` (R84), `C_r` and `K_r` (R86). -/
def table6 : Round6 → RoundTable 8
  | .r1 => { partner := [1, 0, 3, 2, 5, 4] ++ paddingPartners,
             add := [1#8, 1#8, 3#8, 3#8, 5#8, 5#8] ++ paddingAdd,
             mask := onesMask }
  | .r2 => { partner := [2, 4, 0, 5, 1, 3] ++ paddingPartners,
             add := [2#8, 4#8, 2#8, 5#8, 4#8, 5#8] ++ paddingAdd,
             mask := [0xFE#8, 0xFD#8, 0xFE#8, 0xFE#8, 0xFD#8, 0xFE#8] ++ paddingMask }
  | .r3 => { partner := [1, 0, 3, 2, 5, 4] ++ paddingPartners,
             add := [1#8, 1#8, 3#8, 3#8, 5#8, 5#8] ++ paddingAdd,
             mask := onesMask }
  | .r4 => { partner := [0, 2, 1, 4, 3, 5] ++ paddingPartners,
             add := [0#8, 2#8, 2#8, 4#8, 4#8, 5#8] ++ paddingAdd,
             mask := onesMask }
  | .r5 => { partner := [0, 1, 3, 2, 4, 5] ++ paddingPartners,
             add := [0#8, 1#8, 3#8, 3#8, 4#8, 5#8] ++ paddingAdd,
             mask := onesMask }

/-- `ROUND6(r, x)` (R88). -/
def round6 (r : Round6) (x : DataWord) : DataWord :=
  roundWord (params .sn6w8b) (table6 r) x

/-- `NET6(x)` (R91). -/
def net6 (x : DataWord) : DataWord :=
  round6 .r5 (round6 .r4 (round6 .r3 (round6 .r2 (round6 .r1 x))))

/-- The stage advance of 6w8b (R93): a stage loads only when the valid bit feeding it is 1. -/
def Block6.advance (b : Block6) : Block6 :=
  { b with
    q2 := if b.qv1 then round6 .r2 b.q1 else b.q2
    qv2 := b.qv1
    q3 := if b.qv2 then round6 .r3 b.q2 else b.q3
    qv3 := b.qv2
    q4 := if b.qv3 then round6 .r4 b.q3 else b.q4
    qv4 := b.qv3
    q5 := if b.qv4 then round6 .r5 b.q4 else b.q5
    qv5 := b.qv4 }

/-- A beat enters stage 1 while the others move on (R92, R93). -/
def Block6.enter (x : DataWord) (b : Block6) : Block6 :=
  { b.advance with q1 := round6 .r1 x, qv1 := true }

/-- A bubble enters stage 1 while the others move on (R98, R93). -/
def Block6.bubble (b : Block6) : Block6 := { b.advance with qv1 := false }

/-- Synchronous reset: the valid bits, and nothing else (R94). -/
def Block6.clear (b : Block6) : Block6 :=
  { b with qv1 := false, qv2 := false, qv3 := false, qv4 := false, qv5 := false }

/-- `SORT6B` (R92). -/
def execSort6b (e0 e1 e2 e3 e4 e5 : BitVec 8) (pad : BitVec 80) (s : State) :
    Host.Outcome State Fault Refusal :=
  .next (s.setB6 (s.b6.enter (beat6 e0 e1 e2 e3 e4 e5 pad)))

/-- `NOP6` (R98). -/
def execNop6 (s : State) : Host.Outcome State Fault Refusal := .next (s.setB6 s.b6.bubble)

/-- `RST6` (R94). After this edge the block is booted (R120). -/
def execRst6 (s : State) : Host.Outcome State Fault Refusal :=
  .next ((s.setB6 s.b6.clear).setBooted .sn6w8b true)

end Sys2Proof.Machine
end

