-- ==== Sys2Proof/Machine/Dispatch.lean ====
section
/-! DEFINITION. One arm per operation (R58). -/

namespace Sys2Proof.Machine

def exec (i : Instr) (s : State) : Host.Outcome State Fault Refusal :=
  match i with
  | .sort4 e0 e1 e2 e3 => Sys2Proof.Machine.execSort4 e0 e1 e2 e3 s
  | .nop4 _ => Sys2Proof.Machine.execNop4 s
  | .rst4 _ _ => Sys2Proof.Machine.execRst4 s
  | .sort6b e0 e1 e2 e3 e4 e5 pad => Sys2Proof.Machine.execSort6b e0 e1 e2 e3 e4 e5 pad s
  | .nop6 _ => Sys2Proof.Machine.execNop6 s
  | .rst6 _ _ => Sys2Proof.Machine.execRst6 s

end Sys2Proof.Machine
end

