-- ==== Sys2Proof/Machine/Step.lean ====
section
/-! DEFINITION. One step: one event of the environment (R10, R15, R46). A rising edge runs the operation its
control word selects; with no event the clock stands still and nothing changes (R117). -/

namespace Sys2Proof.Machine

/-- One step of the machine. DESIGN CHOICE (log 11): a refused cycle of one block (R104, R126) ends the step of the
joint machine, so the other block's queued edges do not run after it either, although instances share nothing (R115). -/
def step (s : State) : Host.Outcome State Fault Refusal :=
  match fetch s with
  | .noEdge => .next s
  | .lost b t => .next (powerOn b t)
  | .refuse r => .refused r
  | .word b cw t => exec (decode b cw) t

/-- The table's word `w`, put where `step` takes its next input: a rising edge of block `b`, in front of the
queue. A number that is no control word (a bit at 130 or above, R46) is no edge. -/
def State.withFetchWordOf (b : Block) (s : State) (nbits w : Nat) : State :=
  let v := w % 2 ^ nbits
  if v < 2 ^ 130 then s.setEvents (edgeOf b (BitVec.ofNat 130 v) :: s.events) else s

/-- The same for `sorting_network_4w32b`, the block `decodeTableWord` reads a word for (log 8). -/
def State.withFetchWord (s : State) (nbits w : Nat) : State := s.withFetchWordOf .sn4w32b nbits w

end Sys2Proof.Machine
end

