-- ==== Sys2Proof/Machine/Ports.lean ====
section
/-! DEFINITION. The output ports: driven straight from the last stage, with no path from any input (R22, R23). -/

namespace Sys2Proof.Machine

/-- `out_valid` (R22, R23). -/
def outValid : Block → State → Bool
  | .sn4w32b, s => s.b4.v3
  | .sn6w8b, s => s.b6.qv5

/-- `out_data` (R22, R23). -/
def outData : Block → State → DataWord
  | .sn4w32b, s => s.b4.s3
  | .sn6w8b, s => s.b6.q5

/-- The valid bits of a block, stage 1 first: which stages hold a beat (R18, R19), the last one's among
them (log 12). -/
def validBits : Block → State → List Bool
  | .sn4w32b, s => [s.b4.v1, s.b4.v2, s.b4.v3]
  | .sn6w8b, s => [s.b6.qv1, s.b6.qv2, s.b6.qv3, s.b6.qv4, s.b6.qv5]

/-- The stage words of a block, stage 1 first (R18, R19). -/
def stageWords : Block → State → List DataWord
  | .sn4w32b, s => [s.b4.s1, s.b4.s2, s.b4.s3]
  | .sn6w8b, s => [s.b6.q1, s.b6.q2, s.b6.q3, s.b6.q4, s.b6.q5]

end Sys2Proof.Machine
end

