-- ==== Sys2Proof/Machine/Run.lean ====
section
/-! DEFINITION. Runs of one block and what the environment observes of them (R119, R129, R130). -/

namespace Sys2Proof.Machine

/-- Queue a rising edge of block `b` for each control word, in order, in place of what was queued. -/
def State.drive (b : Block) (cws : List CtrlWord) (s : State) : State := s.setEvents (cws.map (edgeOf b))

/-- The pairs (cycle, `out_data`) of the cycles with `out_valid = 1`, over `n` steps of which the first one's
cycle is `k` (R129). A run has no observation if one of its cycles is refused (R104) or comes before the block has
been booted (R119, R130, log 10). -/
def observe (b : Block) : Nat → Nat → State → Option (List (Nat × DataWord))
  | 0, _, _ => some []
  | n + 1, k, s =>
    match step s with
    | .next t =>
      if t.booted b then
        (observe b n (k + 1) t).map fun later => (if outValid b t then [(k, outData b t)] else []) ++ later
      else none
    | .fault _ => none
    | .refused _ => none

/-- The observation of a trace of control words from a state, if the trace has a meaning there (R129, R130): the
block has been booted before, or the first word is a reset. -/
def observation (b : Block) (cws : List CtrlWord) (s : State) : Option (List (Nat × DataWord)) :=
  observe b cws.length 0 (s.drive b cws)

end Sys2Proof.Machine
end

