-- ==== Sys2Proof/Machine/Caller.lean ====
section
/-! DEFINITION. The optional caller-side mapping of R36 and R38: a byte-addressed little-endian memory beside a
block, and the source's in-place network call. No part of either block (R28, R32). -/

namespace Sys2Proof.Machine

/-- The bytes the caller owns, by address. An address that is not listed is not the caller's: reading or
writing it is refused (U2, log 7). -/
abbrev Memory := List Host.Cell

/-- The canonical form: addresses strictly rising. -/
abbrev Memory.wf (m : Memory) : Prop := m.Pairwise fun a b => a.1 < b.1

/-- The byte at an address, if the caller owns it. -/
def Memory.byte (m : Memory) (a : Nat) : Option (BitVec 8) :=
  match m with
  | [] => none
  | c :: cs => if c.1 = a then some c.2 else Memory.byte cs a

/-- Write the byte at an address; an address the caller does not own is refused. -/
def Memory.setByte (m : Memory) (a : Nat) (v : BitVec 8) : Option Memory :=
  match m with
  | [] => none
  | c :: cs => if c.1 = a then some ((a, v) :: cs) else (Memory.setByte cs a v).map (c :: ·)

/-- The `n` bytes from `base` on, lowest address first. -/
def Memory.bytes (m : Memory) (base : Nat) : Nat → Option (List (BitVec 8))
  | 0 => some []
  | n + 1 =>
    match Memory.byte m base, Memory.bytes m (base + 1) n with
    | some b, some bs => some (b :: bs)
    | _, _ => none

/-- `MemRead(addr, n)`: `n` bytes, the lowest address least significant (R10, R38). DESIGN CHOICE (log 7): every
address is accepted, whatever its alignment; R38 leaves alignment to the caller and U2 gives no tolerated width. -/
def Memory.read (m : Memory) (base n : Nat) : Option DataWord := (m.bytes base n).map (pack 8)

/-- Write bytes from `base` on, lowest address first. -/
def Memory.setBytes (m : Memory) (base : Nat) : List (BitVec 8) → Option Memory
  | [] => some m
  | b :: bs =>
    match Memory.setByte m base b with
    | some m' => Memory.setBytes m' (base + 1) bs
    | none => none

/-- `MemWrite(addr, n, v)`: the low `n` bytes of `v`, the least significant at the lowest address (R10, R38). DESIGN
CHOICE (log 7): at any alignment, as `Memory.read`. -/
def Memory.write (m : Memory) (base n : Nat) (v : DataWord) : Option Memory := m.setBytes base (lanes 8 n v)

/-- The 4w32b buffer as an input beat: one 16-byte access (R38). -/
def load4 (m : Memory) (base : Nat) : Option DataWord := m.read base 16

/-- The output beat back into the 4w32b buffer (R38). -/
def store4 (m : Memory) (base : Nat) (out : DataWord) : Option Memory := m.write base 16 out

/-- The 6w8b buffer as an input beat: 4 bytes, then 2; the padding is whatever the caller drives (R38). -/
def load6 (m : Memory) (base : Nat) (pad : BitVec 80) : Option DataWord :=
  match m.read base 4, m.read (base + 4) 2 with
  | some lo, some hi => some ((pad.setWidth 128 <<< 48) ||| (hi <<< 32) ||| lo)
  | _, _ => none

/-- The output beat back into the 6w8b buffer: 4 bytes, then 2; the padding is never written back (R38). -/
def store6 (m : Memory) (base : Nat) (out : DataWord) : Option Memory :=
  match m.write base 4 out with
  | some m' => m'.write (base + 4) 2 (out >>> 32)
  | none => none

/-- Present one beat to a block and wait for it: the beat, then `LATENCY-1` bubbles; the word the block then
drives, and the state. Nothing if a step stops, the block shows no beat (R121, R129), or it has not been booted, whose
output must not be consumed (R119, R130, log 10). -/
def sortBeat (b : Block) (x : DataWord) (s : State) : Option (DataWord × State) :=
  let bubbles := List.replicate (latency b - 1) (ctrlWord false false 0#128)
  match Host.Core.run Sys2Proof.core (latency b) (s.drive b (ctrlWord false true x :: bubbles)) with
  | .next t => if t.booted b && outValid b t then some (outData b t, t) else none
  | .fault _ => none
  | .refused _ => none

/-- The in-place call on a 4w32b buffer: load, sort, store (R36, R38). -/
def call4 (m : Memory) (base : Nat) (s : State) : Option Memory :=
  match load4 m base with
  | some x =>
    match sortBeat .sn4w32b x s with
    | some (y, _) => store4 m base y
    | none => none
  | none => none

/-- The in-place call on a 6w8b buffer: load, sort, store (R36, R38). -/
def call6 (m : Memory) (base : Nat) (pad : BitVec 80) (s : State) : Option Memory :=
  match load6 m base pad with
  | some x =>
    match sortBeat .sn6w8b x s with
    | some (y, _) => store6 m base y
    | none => none
  | none => none

end Sys2Proof.Machine
end

