-- ==== Sys2Proof/Machine/Trace.lean ====
section
/-! DEFINITION. Traces: operation lines, pseudo-operations and their expansion into control words (R52 to R57),
and the written encoding of a control word (R54). -/

namespace Sys2Proof.Machine

/-- How an operand or the padding is written (R53). -/
inductive Literal where
  /-- a signed decimal integer -/
  | decimal (v : Int)
  /-- `0x` and that many hexadecimal digits, most significant first; `v` is their value -/
  | hex (digits : Nat) (v : Nat)
  deriving DecidableEq, Repr

/-- In range for a `W`-bit operand: `-2^(W-1) .. 2^(W-1)-1`, or exactly `W/4` hex digits (R53). -/
def Literal.wf (W : Nat) : Literal → Bool
  | .decimal v => decide (-(2 ^ (W - 1) : Int) ≤ v) && decide (v < (2 ^ (W - 1) : Int))
  | .hex d v => decide (d = W / 4) && decide (v < 16 ^ d)

/-- The bit pattern a literal stands for (R53). -/
def Literal.bits (W : Nat) : Literal → BitVec W
  | .decimal v => BitVec.ofInt W v
  | .hex _ v => BitVec.ofNat W v

/-- One line of a trace after the `.block` line (R52, R53, R55 to R57). -/
inductive Line where
  | sort4 (e0 e1 e2 e3 : Literal)
  | nop4
  | rst4
  /-- without `pad=`, the padding is 0 (R53) -/
  | sort6b (e0 e1 e2 e3 e4 e5 : Literal) (pad : Option Literal)
  | nop6
  | rst6
  | wait (n : Nat)
  | drain
  | boot
  deriving DecidableEq, Repr

/-- A trace: the block its first line names, and its lines (R52). -/
structure Trace where
  block : Block
  lines : List Line
  deriving DecidableEq, Repr

/-- The padding is written as exactly 20 hex digits (R53). -/
def padWf : Option Literal → Bool
  | none => true
  | some (.hex d v) => decide (d = 20) && decide (v < 16 ^ d)
  | some (.decimal _) => false

/-- A line a block's trace may hold: an operation of that block with operands in range (R52, R53), or a
pseudo-operation. -/
def Line.wf (b : Block) : Line → Bool
  | .sort4 e0 e1 e2 e3 => b == .sn4w32b && [e0, e1, e2, e3].all (Literal.wf 32)
  | .nop4 => b == .sn4w32b
  | .rst4 => b == .sn4w32b
  | .sort6b e0 e1 e2 e3 e4 e5 pad =>
    b == .sn6w8b && [e0, e1, e2, e3, e4, e5].all (Literal.wf 8) && padWf pad
  | .nop6 => b == .sn6w8b
  | .rst6 => b == .sn6w8b
  | .wait _ => true
  | .drain => true
  | .boot => true

/-- A trace every line of which its block may hold (R52, R53). -/
def Trace.wf (t : Trace) : Bool := t.lines.all (Line.wf t.block)

/-- The bubble line of a block (R53, R55). -/
def bubbleOf : Block → Instr
  | .sn4w32b => .nop4 0#128
  | .sn6w8b => .nop6 0#128

/-- The reset line of a block (R53, R57). -/
def resetOf : Block → Instr
  | .sn4w32b => .rst4 false 0#128
  | .sn6w8b => .rst6 false 0#128

/-- The operations a line stands for, one a cycle (R53, R55, R56, R57). -/
def Line.expand (b : Block) : Line → List Instr
  | .sort4 e0 e1 e2 e3 => [.sort4 (e0.bits 32) (e1.bits 32) (e2.bits 32) (e3.bits 32)]
  | .nop4 => [.nop4 0#128]
  | .rst4 => [.rst4 false 0#128]
  | .sort6b e0 e1 e2 e3 e4 e5 pad =>
    [.sort6b (e0.bits 8) (e1.bits 8) (e2.bits 8) (e3.bits 8) (e4.bits 8) (e5.bits 8)
      (match pad with | none => 0#80 | some l => l.bits 80)]
  | .nop6 => [.nop6 0#128]
  | .rst6 => [.rst6 false 0#128]
  | .wait n => List.replicate n (bubbleOf b)
  | .drain => List.replicate (latency b) (bubbleOf b)
  | .boot => [resetOf b]

/-- The control words of a trace, in the order of their rising edges (R52). -/
def Trace.words (t : Trace) : List CtrlWord := (t.lines.flatMap (Line.expand t.block)).map encode

/-- The observation of a trace from a state (R129). -/
def Trace.observation (t : Trace) (s : State) : Option (List (Nat × DataWord)) :=
  Sys2Proof.Machine.observation t.block t.words s

/-- The character of a hexadecimal digit. -/
def hexChar (n : Nat) : Char :=
  if n < 10 then Char.ofNat (48 + n) else Char.ofNat (55 + n)

/-- The low `n` hex digits of a number, most significant first. -/
def hexDigits : Nat → Nat → List Char
  | 0, _ => []
  | n + 1, v => hexDigits n (v / 16) ++ [hexChar (v % 16)]

/-- The written encoding of a control word: 33 hex digits, the digit of `{rst, in_valid}` first, `_` between
it and the four groups of eight (R54). -/
def written (cw : CtrlWord) : List Char :=
  ['0', 'x'] ++ hexDigits 1 (cw.toNat / 16 ^ 32) ++ ['_'] ++ hexDigits 8 (cw.toNat / 16 ^ 24) ++ ['_'] ++
    hexDigits 8 (cw.toNat / 16 ^ 16) ++ ['_'] ++ hexDigits 8 (cw.toNat / 16 ^ 8) ++ ['_'] ++
    hexDigits 8 cw.toNat

end Sys2Proof.Machine
end

