-- ==== Sys2Proof/Machine/TraceText.lean ====
section
/-! DEFINITION. The trace text of R52 to R57 read into a `Trace`. A text that is no trace gives nothing. Points
of layout the rules leave open are log 9. -/

namespace Sys2Proof.Machine

/-- Cut a text at every `sep`. -/
def splitAtChar (sep : Char) : List Char → List (List Char)
  | [] => [[]]
  | c :: cs =>
    match splitAtChar sep cs with
    | [] => [[c]]
    | w :: ws => if c = sep then [] :: w :: ws else (c :: w) :: ws

/-- Space, tab or carriage return. -/
def isBlank (c : Char) : Bool := c == ' ' || c == '\t' || c == '\r'

/-- Without the blanks at both ends. -/
def trimBlanks (cs : List Char) : List Char :=
  ((cs.dropWhile isBlank).reverse.dropWhile isBlank).reverse

/-- A line without its comment (R52) and the blanks at its ends. -/
def lineText (cs : List Char) : List Char := trimBlanks (cs.takeWhile (· != ';'))

/-- The value of a digit in the given base, 10 or 16. -/
def digitValue (base : Nat) (c : Char) : Option Nat :=
  let n := c.toNat
  if 48 ≤ n ∧ n ≤ 57 then some (n - 48)
  else if base = 16 ∧ 65 ≤ n ∧ n ≤ 70 then some (n - 55)
  else if base = 16 ∧ 97 ≤ n ∧ n ≤ 102 then some (n - 87)
  else none

/-- Digits, most significant first, after the value `acc`. -/
def digitsFrom (base : Nat) : Nat → List Char → Option Nat
  | acc, [] => some acc
  | acc, c :: cs =>
    match digitValue base c with
    | some d => digitsFrom base (base * acc + d) cs
    | none => none

/-- A number of one digit or more. -/
def readNumber (base : Nat) : List Char → Option Nat
  | [] => none
  | c :: cs => digitsFrom base 0 (c :: cs)

/-- An operand: a signed decimal integer, or `0x` and hex digits (R53). -/
def readLiteral : List Char → Option Literal
  | '0' :: 'x' :: ds => (readNumber 16 ds).map (Literal.hex ds.length)
  | '-' :: ds => (readNumber 10 ds).map fun n => Literal.decimal (-(n : Int))
  | ds => (readNumber 10 ds).map fun n => Literal.decimal (n : Int)

/-- All operands of a comma-separated list. -/
def readLiterals : List (List Char) → Option (List Literal)
  | [] => some []
  | w :: ws =>
    match readLiteral (trimBlanks w), readLiterals ws with
    | some l, some ls => some (l :: ls)
    | _, _ => none

/-- The padding operand `pad=0x…` (R53). -/
def readPad (cs : List Char) : Option Literal :=
  match trimBlanks cs with
  | 'p' :: 'a' :: 'd' :: '=' :: ds => readLiteral ds
  | _ => none

/-- A letter without its case (mnemonics are case-insensitive, R52). -/
def upperChar (c : Char) : Char := if 97 ≤ c.toNat ∧ c.toNat ≤ 122 then Char.ofNat (c.toNat - 32) else c

/-- The operands of a SORT6B line (R53). -/
def readSort6b (args : List (List Char)) : Option Line :=
  match readLiterals (args.take 6) with
  | some [e0, e1, e2, e3, e4, e5] =>
    match args.drop 6 with
    | [] => some (.sort6b e0 e1 e2 e3 e4 e5 none)
    | [p] => (readPad p).map fun l => .sort6b e0 e1 e2 e3 e4 e5 (some l)
    | _ => none
  | _ => none

/-- The operands of a SORT4 line (R53). -/
def readSort4 (args : List (List Char)) : Option Line :=
  match readLiterals args with
  | some [e0, e1, e2, e3] => some (.sort4 e0 e1 e2 e3)
  | _ => none

/-- A line without operands. -/
def readBare (args : List Char) (l : Line) : Option Line := if args = [] then some l else none

/-- One line, its mnemonic in capitals and what follows it (R53, R55 to R57). -/
def readOperation (mnemonic : List Char) (args : List Char) : Option Line :=
  if mnemonic = "SORT4".toList then readSort4 (splitAtChar ',' args)
  else if mnemonic = "NOP4".toList then readBare args .nop4
  else if mnemonic = "RST4".toList then readBare args .rst4
  else if mnemonic = "SORT6B".toList then readSort6b (splitAtChar ',' args)
  else if mnemonic = "NOP6".toList then readBare args .nop6
  else if mnemonic = "RST6".toList then readBare args .rst6
  else if mnemonic = "WAIT".toList then (readNumber 10 args).map Line.wait
  else if mnemonic = "DRAIN".toList then readBare args .drain
  else if mnemonic = "BOOT".toList then readBare args .boot
  else none

/-- One line, cut after its first word. -/
def readLine (cs : List Char) : Option Line :=
  readOperation ((cs.takeWhile (!isBlank ·)).map upperChar) (trimBlanks (cs.dropWhile (!isBlank ·)))

/-- All the lines after the first. -/
def readLines : List (List Char) → Option (List Line)
  | [] => some []
  | w :: ws =>
    match readLine w, readLines ws with
    | some l, some ls => some (l :: ls)
    | _, _ => none

/-- The line that names the block (R52). -/
def readBlock (cs : List Char) : Option Block :=
  if cs.takeWhile (!isBlank ·) = ".block".toList then
    let name := trimBlanks (cs.dropWhile (!isBlank ·))
    if name = "sorting_network_4w32b".toList then some .sn4w32b
    else if name = "sorting_network_6w8b".toList then some .sn6w8b
    else none
  else none

/-- A whole text: the block's line, then operations and pseudo-operations, all of them ones that block's
trace may hold (R52, R53). -/
def readTrace (text : List Char) : Option Trace :=
  match ((splitAtChar '\n' text).map lineText).filter (· != []) with
  | [] => none
  | first :: rest =>
    match readBlock first, readLines rest with
    | some b, some ls =>
      let t : Trace := { block := b, lines := ls }
      if t.wf then some t else none
    | _, _ => none

end Sys2Proof.Machine
end

