-- ==== Sys2Proof/Machine/Reference.lean ====
section
/-! DEFINITION. The reference functions the spec compares the blocks with; no part of a block. `SORTED_W` (R11),
the compare-and-swap (R12), the CAS form of a round (R13, R67, R90), the scalar networks (R5, R83), and the
observation a trace must have (R121, R124, R129). -/

namespace Sys2Proof.Machine

/-- Put a value in front of the first one that is not smaller. -/
def insertSorted {W : Nat} (e : BitVec W) : List (BitVec W) → List (BitVec W)
  | [] => [e]
  | x :: xs => if sval e ≤ sval x then e :: x :: xs else x :: insertSorted e xs

/-- `SORTED_W`: the same multiset in non-descending order (R11). -/
def sortedW {W : Nat} : List (BitVec W) → List (BitVec W)
  | [] => []
  | e :: es => insertSorted e (sortedW es)

/-- Non-descending by signed value (R11). -/
def NonDescending {W : Nat} (es : List (BitVec W)) : Prop := es.Pairwise fun a b => sval a ≤ sval b

/-- A compare-and-swap on the pair `(i, j)`: the smaller to `i`, the larger to `j` (R12). -/
def casPair {W : Nat} (ij : Nat × Nat) (xs : List (BitVec W)) : List (BitVec W) :=
  let a := xs.getD ij.1 0#W
  let b := xs.getD ij.2 0#W
  (xs.set ij.1 (smin a b)).set ij.2 (smax a b)

/-- Compare-and-swap pairs one after the other. -/
def casAll {W : Nat} (pairs : List (Nat × Nat)) (xs : List (BitVec W)) : List (BitVec W) :=
  pairs.foldl (fun ys ij => casPair ij ys) xs

/-- What R67 and R90 say lane `i` holds after a round whose partner permutation is `P`. -/
def casLane {W : Nat} (t : RoundTable W) (x : DataWord) (i : Nat) : BitVec W :=
  let p := t.p i
  if p = i then lane W x i
  else if i < p then smin (lane W x i) (lane W x p)
  else smax (lane W x i) (lane W x p)

/-- The pair sequence of the source's scalar 6-element network (R83). -/
def scalarPairs6 : List (Nat × Nat) :=
  [(1, 2), (0, 2), (0, 1), (4, 5), (3, 5), (3, 4), (0, 3), (1, 4), (2, 5), (2, 4), (1, 3), (2, 3)]

/-- The source's scalar 6-element 32-bit network (R5, R83, R102). -/
def scalarNet6 (xs : List (BitVec 32)) : List (BitVec 32) := casAll scalarPairs6 xs

/-- The source's scalar 2-element network: one compare-and-swap (R5, `95_test_vectors.md` V-L1-5). -/
def scalarNet2 (xs : List (BitVec 32)) : List (BitVec 32) := casAll [(0, 1)] xs

/-- The network function of a block (R68, R91). -/
def net : Block → DataWord → DataWord
  | .sn4w32b => net4
  | .sn6w8b => net6

/-- Is a control word a beat: `rst = 0`, `in_valid = 1` (R50)? -/
def isBeat (cw : CtrlWord) : Bool := !CtrlWord.rst cw && CtrlWord.inValid cw

/-- The observation the rules give a trace from cycle `k` on, started with no beat in flight: the beat of edge
`t` is seen in cycle `t+LATENCY-1`, as its network's word, if the run reaches that cycle and no edge in
`t+1 .. t+LATENCY-1` is a reset (R121, R124, R129). -/
def expectedFrom (b : Block) : Nat → List CtrlWord → List (Nat × DataWord)
  | _, [] => []
  | k, cw :: rest =>
    let window := rest.take (latency b - 1)
    let own := if isBeat cw ∧ window.length = latency b - 1 ∧ ∀ w ∈ window, CtrlWord.rst w = false
      then [(k + (latency b - 1), net b (CtrlWord.inData cw))] else []
    own ++ expectedFrom b (k + 1) rest

end Sys2Proof.Machine
end

