-- ==== Sys2Proof/Safety.lean ====
section
/-! DEFINITION. What the claims mean by an input with a meaning, a block without a beat in flight, and a stage that
holds what it should. -/

namespace Sys2Proof.Machine

/-- Every wire the cycle's operation reads has a defined level (R104, R126). -/
def InputsDefined (b : Block) (p : Pins) : Prop := p.refusal b = none

/-- No beat in flight (R30, R120). DEDUCED (log 12): a beat in the last stage, the one on the outputs, counts as in
flight, as R122 and R128 count, where R29's words leave it out. -/
def NoBeatInFlight (b : Block) (s : State) : Prop := ∀ v ∈ validBits b s, v = false

/-- The reset state of a block: a reset edge has come since power-on, and no beat is in flight (R30, R120). -/
def InResetState (b : Block) (s : State) : Prop := s.booted b = true ∧ NoBeatInFlight b s

/-- Each full stage of 4w32b holds the rounds up to it of some beat (R18). -/
def Stages4Sound (x : Block4) : Prop :=
  (x.v1 = true → ∃ d, x.s1 = round4 .r1 d) ∧
  (x.v2 = true → ∃ d, x.s2 = round4 .r2 (round4 .r1 d)) ∧
  (x.v3 = true → ∃ d, x.s3 = net4 d)

/-- Each full stage of 6w8b holds the rounds up to it of some beat (R19). -/
def Stages6Sound (x : Block6) : Prop :=
  (x.qv1 = true → ∃ d, x.q1 = round6 .r1 d) ∧
  (x.qv2 = true → ∃ d, x.q2 = round6 .r2 (round6 .r1 d)) ∧
  (x.qv3 = true → ∃ d, x.q3 = round6 .r3 (round6 .r2 (round6 .r1 d))) ∧
  (x.qv4 = true → ∃ d, x.q4 = round6 .r4 (round6 .r3 (round6 .r2 (round6 .r1 d)))) ∧
  (x.qv5 = true → ∃ d, x.q5 = net6 d)

/-- The machine's invariant: every full stage of a booted block holds the partial result of a beat. Before its first
reset edge a block's valid bits mean nothing (R119). -/
def MachineInv (s : State) : Prop :=
  (s.booted .sn4w32b = true → Stages4Sound s.b4) ∧ (s.booted .sn6w8b = true → Stages6Sound s.b6)

/-- The active lanes of a block's word (R14). -/
def activeLanesSorted : Block → DataWord → Prop
  | .sn4w32b, x => NonDescending (lanes 32 4 x)
  | .sn6w8b, x => NonDescending (lanes 8 6 x)

/-- A machine whose outputs, where they are a booted block's beat, are sorted: what every claim about outputs comes
to. -/
def OutputsSorted (s : State) : Prop :=
  ∀ b, s.booted b = true → outValid b s = true → activeLanesSorted b (outData b s)

/-- The same registers of both blocks, the same queue and the same blocks booted: all that is left out is which free
value comes next. -/
def SameMachine (s t : State) : Prop :=
  s.b4 = t.b4 ∧ s.b6 = t.b6 ∧ s.events = t.events ∧ s.booted4 = t.booted4 ∧ s.booted6 = t.booted6

/-- `n` steps from `s` none of which stops. -/
def RunsTo (n : Nat) (s t : State) : Prop := Host.Core.run Sys2Proof.core n s = .next t

end Sys2Proof.Machine
end

