-- ==== Sys2Proof/Certificates/Slice0/Obligations.lean ====
section
/-! DEFINITION. The statements for the provers. Each docstring names the rules of `spec/` it formalises. -/

open Sys2Proof Sys2Proof.Machine

/-! ## Encoding and decoding -/

/-- R46 to R48, R50: decoding the encoding of an operation, at the block it belongs to, gives it back with every field. -/
def Obligations.EncodeThenDecodeIsIdentity : Prop :=
  ∀ (b : Block) (i : Instr), i.wf b = true → decode b (encode i) = i

/-- R50, R51: every control word is an operation of the block that samples it, and no bit of it is lost. -/
def Obligations.DecodeThenEncodeIsIdentity : Prop :=
  ∀ (b : Block) (cw : CtrlWord), (decode b cw).wf b = true ∧ encode (decode b cw) = cw

/-- The operation map of R50, with the fields of R47 and R48, and the table's match and mask. -/
def Obligations.OperationMapTestsResetThenValid : Prop :=
  ∀ cw : CtrlWord,
    (cw.getLsbD 129 = true →
      decode .sn4w32b cw = .rst4 (cw.getLsbD 128) (cw.extractLsb' 0 128) ∧
      decode .sn6w8b cw = .rst6 (cw.getLsbD 128) (cw.extractLsb' 0 128)) ∧
    (cw.getLsbD 129 = false → cw.getLsbD 128 = true →
      decode .sn4w32b cw = .sort4 (cw.extractLsb' 0 32) (cw.extractLsb' 32 32) (cw.extractLsb' 64 32)
        (cw.extractLsb' 96 32) ∧
      decode .sn6w8b cw = .sort6b (cw.extractLsb' 0 8) (cw.extractLsb' 8 8) (cw.extractLsb' 16 8)
        (cw.extractLsb' 24 8) (cw.extractLsb' 32 8) (cw.extractLsb' 40 8) (cw.extractLsb' 48 80)) ∧
    (cw.getLsbD 129 = false → cw.getLsbD 128 = false →
      decode .sn4w32b cw = .nop4 (cw.extractLsb' 0 128) ∧ decode .sn6w8b cw = .nop6 (cw.extractLsb' 0 128)) ∧
    (∀ b : Block, cw &&& tableMask (decode b cw) = tableMatch (decode b cw))

/-- The words of R54 and of the decode vectors (`95_test_vectors.md` 2.4), at both blocks. -/
def Obligations.WrittenWordsDecode : Prop :=
  decode .sn4w32b 0x000000000000000000000000000000000#130 = .nop4 0#128 ∧
  decode .sn6w8b 0x000000000000000000000000000000000#130 = .nop6 0#128 ∧
  decode .sn4w32b 0x100000000000000000000000000000000#130 = .sort4 0#32 0#32 0#32 0#32 ∧
  decode .sn6w8b 0x100000000000000000000000000000000#130 = .sort6b 0#8 0#8 0#8 0#8 0#8 0#8 0#80 ∧
  decode .sn4w32b 0x200000000000000000000000000000000#130 = .rst4 false 0#128 ∧
  decode .sn6w8b 0x300000001000000020000000300000004#130 = .rst6 true 0x00000001000000020000000300000004#128 ∧
  decode .sn4w32b 0x100000001000000020000000300000004#130 = .sort4 4#32 3#32 2#32 1#32 ∧
  decode .sn6w8b 0x100000000000000000000010203040506#130 = .sort6b 6#8 5#8 4#8 3#8 2#8 1#8 0#80 ∧
  decode .sn6w8b 0x100000001000000020000000300000004#130 =
    .sort6b 4#8 0#8 0#8 0#8 3#8 0#8 0x00000001000000020000#80 ∧
  decode .sn4w32b 0x0FFFFFFFFFFFFFFFFFFFFFFFFFFFFFFFF#130 = .nop4 0xFFFFFFFFFFFFFFFFFFFFFFFFFFFFFFFF#128 ∧
  decode .sn6w8b 0x0FFFFFFFFFFFFFFFFFFFFFFFFFFFFFFFF#130 = .nop6 0xFFFFFFFFFFFFFFFFFFFFFFFFFFFFFFFF#128 ∧
  decode .sn4w32b 0x300000001000000020000000300000004#130 = .rst4 true 0x00000001000000020000000300000004#128 ∧
  decode .sn6w8b 0x200000000000000000000000000000000#130 = .rst6 false 0#128

/-- R46, R50 (the host's two names, log 8): the operation the table's word decodes to is the one the next step runs. -/
def Obligations.FetchWordRunsTheDecodedOperation : Prop :=
  ∀ (b : Block) (nbits w : Nat) (i : Instr) (s : State),
    (decodeTableWordOf b nbits w = some i → step (s.withFetchWordOf b nbits w) = exec i s) ∧
    (decodeTableWord nbits w = some i → step (s.withFetchWord nbits w) = exec i s)

/-! ## Rounds and networks -/

/-- R67: a round of 4w32b, lane by lane. -/
def Obligations.Round4EqualsCasRound : Prop :=
  ∀ (r : Round4) (x : DataWord), ∀ i < 4,
    ((table4 r).p i = i → lane 32 (round4 r x) i = lane 32 x i) ∧
    (i < (table4 r).p i → lane 32 (round4 r x) i = smin (lane 32 x i) (lane 32 x ((table4 r).p i))) ∧
    ((table4 r).p i < i → lane 32 (round4 r x) i = smax (lane 32 x i) (lane 32 x ((table4 r).p i)))

/-- R90: a round of 6w8b, lane by lane, the padding lanes with the others. -/
def Obligations.Round6EqualsCasRound : Prop :=
  ∀ (r : Round6) (x : DataWord), ∀ i < 16,
    ((table6 r).p i = i → lane 8 (round6 r x) i = lane 8 x i) ∧
    (i < (table6 r).p i → lane 8 (round6 r x) i = smin (lane 8 x i) (lane 8 x ((table6 r).p i))) ∧
    ((table6 r).p i < i → lane 8 (round6 r x) i = smax (lane 8 x i) (lane 8 x ((table6 r).p i)))

/-- R61, R81, R12, R13: every round applies its listed pairs to the lanes, those of 6w8b over all sixteen. -/
def Obligations.RoundsApplyTheirPairs : Prop :=
  ∀ x : DataWord,
    (∀ r : Round4, lanes 32 4 (round4 r x) = casAll (pairs4 r) (lanes 32 4 x)) ∧
    (∀ r : Round6, lanes 8 16 (round6 r x) = casAll (pairs6 r) (lanes 8 16 x))

/-- R61 to R63: the partner permutation comes from the pairs, is an involution and is R62's table; a lane passed through
has mask 0; the add and mask vectors follow their formulas and are the listed data words. -/
def Obligations.Tables4FollowThePairs : Prop :=
  (∀ r, ∀ ij ∈ pairs4 r, (table4 r).p ij.1 = ij.2 ∧ (table4 r).p ij.2 = ij.1) ∧
  (∀ r, ∀ i < 4, (∀ ij ∈ pairs4 r, i ≠ ij.1 ∧ i ≠ ij.2) → (table4 r).p i = i ∧ (table4 r).k i = BitVec.allOnes 32) ∧
  (∀ r, ∀ i < 4, (table4 r).p ((table4 r).p i) = i ∧
    (table4 r).c i = BitVec.ofNat 32 (max i ((table4 r).p i)) ∧
    ((table4 r).p i ≠ i → (table4 r).k i = BitVec.ofInt 32 (min i ((table4 r).p i) - max i ((table4 r).p i) : Int))) ∧
  ((table4 .r1).partner = [1, 0, 3, 2] ∧ (table4 .r2).partner = [2, 3, 0, 1] ∧ (table4 .r3).partner = [0, 2, 1, 3]) ∧
  (∀ r, ∀ i < 4, (table4 r).p i = i → ∀ x : DataWord, maskAt (table4 r) x i = 0#32) ∧
  pack 32 (table4 .r1).add = 0x00000003000000030000000100000001#128 ∧
  pack 32 (table4 .r2).add = 0x00000003000000020000000300000002#128 ∧
  pack 32 (table4 .r3).add = 0x00000003000000020000000200000000#128 ∧
  pack 32 (table4 .r1).mask = 0xFFFFFFFFFFFFFFFFFFFFFFFFFFFFFFFF#128 ∧
  pack 32 (table4 .r2).mask = 0xFFFFFFFEFFFFFFFEFFFFFFFEFFFFFFFE#128 ∧
  pack 32 (table4 .r3).mask = 0xFFFFFFFFFFFFFFFFFFFFFFFFFFFFFFFF#128 ∧
  0#32 &&& 0xFFFFFFFE#32 = 2#32 * 0#32 ∧ 0xFFFFFFFF#32 &&& 0xFFFFFFFE#32 = 2#32 * 0xFFFFFFFF#32

/-- R81, R84, R86, with R82's structure: the tables of 6w8b, as R84's and R86's data words too. -/
def Obligations.Tables6FollowThePairs : Prop :=
  (∀ r, ∀ ij ∈ pairs6 r, (table6 r).p ij.1 = ij.2 ∧ (table6 r).p ij.2 = ij.1) ∧
  (∀ r, ∀ i < 16, (∀ ij ∈ pairs6 r, i ≠ ij.1 ∧ i ≠ ij.2) → (table6 r).p i = i) ∧
  (∀ r, ∀ i < 16, (table6 r).p ((table6 r).p i) = i ∧ (table6 r).c i = BitVec.ofNat 8 (max i ((table6 r).p i))) ∧
  (∀ r, ∀ i < 16, r ≠ .r2 ∨ 6 ≤ i → (table6 r).k i = 0xFF#8) ∧
  (∀ i < 6, (table6 .r2).k i = BitVec.ofInt 8 (min i ((table6 .r2).p i) - max i ((table6 .r2).p i) : Int)) ∧
  (∀ r, ∀ i < 16, 6 ≤ i → (table6 r).p i = i) ∧
  ([Round6.r1, .r2, .r3, .r4, .r5].map fun r => (pairs6 r).length) = [3, 3, 3, 2, 1] ∧
  table6 .r1 = table6 .r3 ∧
  [Round6.r1, .r2, .r3, .r4, .r5].map (fun r => pack 8 ((table6 r).partner.map (BitVec.ofNat 8))) =
    [0x0F0E0D0C0B0A09080706040502030001#128, 0x0F0E0D0C0B0A09080706030105000402#128,
     0x0F0E0D0C0B0A09080706040502030001#128, 0x0F0E0D0C0B0A09080706050304010200#128,
     0x0F0E0D0C0B0A09080706050402030100#128] ∧
  [Round6.r1, .r2, .r3, .r4, .r5].map (fun r => pack 8 (table6 r).add) =
    [0x0F0E0D0C0B0A09080706050503030101#128, 0x0F0E0D0C0B0A09080706050405020402#128,
     0x0F0E0D0C0B0A09080706050503030101#128, 0x0F0E0D0C0B0A09080706050404020200#128,
     0x0F0E0D0C0B0A09080706050403030100#128] ∧
  pack 8 (table6 .r2).mask = 0xFFFFFFFFFFFFFFFFFFFFFEFDFEFEFDFE#128

/-- R74: the indices of 4w32b stay in the pair, their high bits are 0, and only the mask enters them. -/
def Obligations.Index4StaysInThePair : Prop :=
  ∀ (r : Round4) (x : DataWord), ∀ i < 4,
    (indexAt (table4 r) x i = BitVec.ofNat 32 (min i ((table4 r).p i)) ∨
      indexAt (table4 r) x i = BitVec.ofNat 32 (max i ((table4 r).p i))) ∧
    (indexAt (table4 r) x i).extractLsb' 2 30 = 0#30 ∧
    (∀ y : DataWord, maskAt (table4 r) y i = maskAt (table4 r) x i →
      indexAt (table4 r) y i = indexAt (table4 r) x i)

/-- R99: the indices of 6w8b stay in the pair; an active lane's is below 6 and a padding lane's is itself. -/
def Obligations.Index6StaysInThePair : Prop :=
  ∀ (r : Round6) (x : DataWord), ∀ i < 16,
    (indexAt (table6 r) x i = BitVec.ofNat 8 (min i ((table6 r).p i)) ∨
      indexAt (table6 r) x i = BitVec.ofNat 8 (max i ((table6 r).p i))) ∧
    (i < 6 → (indexAt (table6 r) x i).toNat < 6) ∧
    (6 ≤ i → indexAt (table6 r) x i = BitVec.ofNat 8 i) ∧
    (indexAt (table6 r) x i).extractLsb' 4 4 = 0#4

/-- R75, R100: on a tie both masks are 0, both lanes select the high lane, and the output lanes are the tied value. -/
def Obligations.TiedLanesSelectTheSameValue : Prop :=
  (∀ (r : Round4) (x : DataWord), ∀ i < 4, i < (table4 r).p i →
    lane 32 x i = lane 32 x ((table4 r).p i) →
      maskAt (table4 r) x i = 0#32 ∧ maskAt (table4 r) x ((table4 r).p i) = 0#32 ∧
      selectedLane 2 (indexAt (table4 r) x i) = (table4 r).p i ∧
      selectedLane 2 (indexAt (table4 r) x ((table4 r).p i)) = (table4 r).p i ∧
      lane 32 (round4 r x) i = lane 32 x i ∧ lane 32 (round4 r x) ((table4 r).p i) = lane 32 x i) ∧
  (∀ (r : Round6) (x : DataWord), ∀ i < 16, i < (table6 r).p i →
    lane 8 x i = lane 8 x ((table6 r).p i) →
      maskAt (table6 r) x i = 0#8 ∧ maskAt (table6 r) x ((table6 r).p i) = 0#8 ∧
      selectedLane 4 (indexAt (table6 r) x i) = (table6 r).p i ∧
      selectedLane 4 (indexAt (table6 r) x ((table6 r).p i)) = (table6 r).p i ∧
      lane 8 (round6 r x) i = lane 8 x i ∧ lane 8 (round6 r x) ((table6 r).p i) = lane 8 x i)

/-- R11: `SORTED_W` is the one non-descending arrangement of its input. -/
def Obligations.SortedIsTheUniqueArrangement : Prop :=
  ∀ (W : Nat) (es out : List (BitVec W)), out = sortedW es ↔ out.Perm es ∧ NonDescending out

/-- R72: `NET4` sorts. -/
def Obligations.Net4Sorts : Prop :=
  ∀ x : DataWord, lanes 32 4 (net4 x) = sortedW (lanes 32 4 x) ∧
    (lanes 32 4 (net4 x)).Perm (lanes 32 4 x) ∧ NonDescending (lanes 32 4 (net4 x))

/-- R95: `NET6` sorts its active lanes. -/
def Obligations.Net6Sorts : Prop :=
  ∀ x : DataWord, lanes 8 6 (net6 x) = sortedW (lanes 8 6 x)

/-- R96: the active lanes of `NET6` do not depend on the padding. -/
def Obligations.Net6ActiveLanesIgnorePadding : Prop :=
  ∀ x y : DataWord, (∀ k < 48, x.getLsbD k = y.getLsbD k) → lanes 8 6 (net6 x) = lanes 8 6 (net6 y)

/-- R97: every round, and so the network, passes the padding through. -/
def Obligations.PaddingPassesThrough : Prop :=
  ∀ x : DataWord, padding (net6 x) = padding x ∧ ∀ r : Round6, padding (round6 r x) = padding x

/-- R77: `NET4` is idempotent and does not depend on the order of its lanes. -/
def Obligations.Net4IdempotentAndOrderFree : Prop :=
  ∀ x : DataWord, net4 (net4 x) = net4 x ∧
    ∀ y : DataWord, (lanes 32 4 y).Perm (lanes 32 4 x) → net4 y = net4 x

/-- R102: `NET6` is idempotent, does not depend on the order of its active lanes, and agrees with the scalar network. -/
def Obligations.Net6IdempotentOrderFreeAndAgrees : Prop :=
  (∀ x : DataWord, net6 (net6 x) = net6 x) ∧
  (∀ x y : DataWord, (lanes 8 6 y).Perm (lanes 8 6 x) → padding y = padding x → net6 y = net6 x) ∧
  (∀ x : DataWord, (lanes 8 6 (net6 x)).map (BitVec.signExtend 32) =
    scalarNet6 ((lanes 8 6 x).map (BitVec.signExtend 32)))

/-- R5, R83: the scalar sequences of 12 pairs and of one pair are sorting networks. -/
def Obligations.ScalarNetworksSort : Prop :=
  (∀ xs : List (BitVec 32), xs.length = 6 → scalarNet6 xs = sortedW xs) ∧
  (∀ xs : List (BitVec 32), xs.length = 2 → scalarNet2 xs = sortedW xs)

/-- Rows of R76 and R101, the source's own example among them. -/
def Obligations.CornerCasesSort : Prop :=
  net4 0x00000003000000010000000200000002#128 = 0x00000003000000020000000200000001#128 ∧
  net4 0xFFFFFFFF00000000800000007FFFFFFF#128 = 0x7FFFFFFF00000000FFFFFFFF80000000#128 ∧
  net4 0x000000008000000000000001FFFFFFFF#128 = 0x0000000100000000FFFFFFFF80000000#128 ∧
  net6 0x00000000000000000000010202010303#128 = 0x00000000000000000000030302020101#128 ∧
  net6 0xA9A8A7A6A5A4A3A2A1A009807F00FD05#128 = 0xA9A8A7A6A5A4A3A2A1A07F090500FD80#128 ∧
  net6 0xFFFFFFFFFFFFFFFFFFFF000000000000#128 = 0xFFFFFFFFFFFFFFFFFFFF000000000000#128

/-! ## The operations: result, completion and frame -/

/-- R69, R70, R67: SORT4 runs in every state; stage 1 gets round 1 of the elements, the other stages move on, and
nothing outside the block's six registers changes. -/
def Obligations.Sort4EntersStageOne : Prop :=
  ∀ (e0 e1 e2 e3 : BitVec 32) (s : State), ∃ t, exec (.sort4 e0 e1 e2 e3) s = .next t ∧
    t.b4.v1 = true ∧ lanes 32 4 t.b4.s1 = [smin e0 e1, smax e0 e1, smin e2 e3, smax e2 e3] ∧
    t.b4.v2 = s.b4.v1 ∧ t.b4.s2 = (if s.b4.v1 then round4 .r2 s.b4.s1 else s.b4.s2) ∧
    t.b4.v3 = s.b4.v2 ∧ t.b4.s3 = (if s.b4.v2 then round4 .r3 s.b4.s2 else s.b4.s3) ∧
    t.b6 = s.b6 ∧ t.events = s.events ∧ t.free4 = s.free4 ∧ t.free6 = s.free6 ∧
    t.booted4 = s.booted4 ∧ t.booted6 = s.booted6

/-- R73, R70: NOP4 runs in every state; `V1` is cleared, `S1` kept, the other stages move on; frame as for SORT4. -/
def Obligations.Nop4PassesABubble : Prop :=
  ∀ (d : DataWord) (s : State), exec (.nop4 d) s = .next
    { s with b4 := { v1 := false, s1 := s.b4.s1,
                     v2 := s.b4.v1, s2 := if s.b4.v1 then round4 .r2 s.b4.s1 else s.b4.s2,
                     v3 := s.b4.v2, s3 := if s.b4.v2 then round4 .r3 s.b4.s2 else s.b4.s3 } }

/-- R71: RST4 runs in every state, whatever `in_valid` and `in_data` are, and clears the valid bits and nothing else.
That the block is booted then (R120) is kept in the model's own field (log 10). -/
def Obligations.Rst4ClearsTheValidBits : Prop :=
  ∀ (v : Bool) (d : DataWord) (s : State), exec (.rst4 v d) s = .next
    { s with b4 := { v1 := false, v2 := false, v3 := false, s1 := s.b4.s1, s2 := s.b4.s2, s3 := s.b4.s3 },
             booted4 := true }

/-- R92, R93, R90: SORT6B runs in every state; stage 1 gets round 1 of the elements and the padding, the other stages
move on, and nothing outside the block's ten registers changes. -/
def Obligations.Sort6bEntersStageOne : Prop :=
  ∀ (e0 e1 e2 e3 e4 e5 : BitVec 8) (pad : BitVec 80) (s : State),
    ∃ t, exec (.sort6b e0 e1 e2 e3 e4 e5 pad) s = .next t ∧
    t.b6.qv1 = true ∧
    lanes 8 6 t.b6.q1 = [smin e0 e1, smax e0 e1, smin e2 e3, smax e2 e3, smin e4 e5, smax e4 e5] ∧
    padding t.b6.q1 = pad ∧
    t.b6.qv2 = s.b6.qv1 ∧ t.b6.q2 = (if s.b6.qv1 then round6 .r2 s.b6.q1 else s.b6.q2) ∧
    t.b6.qv3 = s.b6.qv2 ∧ t.b6.q3 = (if s.b6.qv2 then round6 .r3 s.b6.q2 else s.b6.q3) ∧
    t.b6.qv4 = s.b6.qv3 ∧ t.b6.q4 = (if s.b6.qv3 then round6 .r4 s.b6.q3 else s.b6.q4) ∧
    t.b6.qv5 = s.b6.qv4 ∧ t.b6.q5 = (if s.b6.qv4 then round6 .r5 s.b6.q4 else s.b6.q5) ∧
    t.b4 = s.b4 ∧ t.events = s.events ∧ t.free4 = s.free4 ∧ t.free6 = s.free6 ∧
    t.booted4 = s.booted4 ∧ t.booted6 = s.booted6

/-- R98, R93: NOP6 runs in every state; `QV1` is cleared, `Q1` kept, the other stages move on; frame as for SORT6B. -/
def Obligations.Nop6PassesABubble : Prop :=
  ∀ (d : DataWord) (s : State), exec (.nop6 d) s = .next
    { s with b6 := { qv1 := false, q1 := s.b6.q1,
                     qv2 := s.b6.qv1, q2 := if s.b6.qv1 then round6 .r2 s.b6.q1 else s.b6.q2,
                     qv3 := s.b6.qv2, q3 := if s.b6.qv2 then round6 .r3 s.b6.q2 else s.b6.q3,
                     qv4 := s.b6.qv3, q4 := if s.b6.qv3 then round6 .r4 s.b6.q3 else s.b6.q4,
                     qv5 := s.b6.qv4, q5 := if s.b6.qv4 then round6 .r5 s.b6.q4 else s.b6.q5 } }

/-- R94: RST6 runs in every state, whatever `in_valid` and `in_data` are, and clears the valid bits and nothing else.
That the block is booted then (R120) is kept in the model's own field (log 10). -/
def Obligations.Rst6ClearsTheValidBits : Prop :=
  ∀ (v : Bool) (d : DataWord) (s : State), exec (.rst6 v d) s = .next
    { s with b6 := { qv1 := false, qv2 := false, qv3 := false, qv4 := false, qv5 := false,
                     q1 := s.b6.q1, q2 := s.b6.q2, q3 := s.b6.q3, q4 := s.b6.q4, q5 := s.b6.q5 },
             booted6 := true }

/-- R30: what each register and output holds after an edge with `rst = 1`, from any state. -/
def Obligations.ResetLeavesTheListedValues : Prop :=
  ∀ (cw : CtrlWord) (s : State), cw.getLsbD 129 = true → ∀ b : Block,
    ∃ t, exec (decode b cw) s = .next t ∧
      validBits b t = (validBits b s).map (fun _ => false) ∧ stageWords b t = stageWords b s ∧
      outValid b t = false ∧ outData b t = outData b s ∧ InResetState b t

/-- R70: at every edge with `rst = 0` each beat of 4w32b moves one stage on, and an empty stage's word is kept. -/
def Obligations.StageAdvance4 : Prop :=
  ∀ (cw : CtrlWord) (s : State), cw.getLsbD 129 = false →
    ∃ t, exec (decode .sn4w32b cw) s = .next t ∧
      (s.b4.v1 = true → t.b4.s2 = round4 .r2 s.b4.s1) ∧ (s.b4.v1 = false → t.b4.s2 = s.b4.s2) ∧
      t.b4.v2 = s.b4.v1 ∧
      (s.b4.v2 = true → t.b4.s3 = round4 .r3 s.b4.s2) ∧ (s.b4.v2 = false → t.b4.s3 = s.b4.s3) ∧
      t.b4.v3 = s.b4.v2

/-- R93: at every edge with `rst = 0` each beat of 6w8b moves one stage on, and an empty stage's word is kept. -/
def Obligations.StageAdvance6 : Prop :=
  ∀ (cw : CtrlWord) (s : State), cw.getLsbD 129 = false →
    ∃ t, exec (decode .sn6w8b cw) s = .next t ∧
      t.b6.q2 = (if s.b6.qv1 then round6 .r2 s.b6.q1 else s.b6.q2) ∧ t.b6.qv2 = s.b6.qv1 ∧
      t.b6.q3 = (if s.b6.qv2 then round6 .r3 s.b6.q2 else s.b6.q3) ∧ t.b6.qv3 = s.b6.qv2 ∧
      t.b6.q4 = (if s.b6.qv3 then round6 .r4 s.b6.q3 else s.b6.q4) ∧ t.b6.qv4 = s.b6.qv3 ∧
      t.b6.q5 = (if s.b6.qv4 then round6 .r5 s.b6.q4 else s.b6.q5) ∧ t.b6.qv5 = s.b6.qv4

/-- R17, R70, R71, R93, R94: the valid bits are a shift register fed by `in_valid`, and `rst` clears it. -/
def Obligations.ValidBitsShiftInTheBeat : Prop :=
  ∀ (b : Block) (cw : CtrlWord) (s : State), ∃ t, exec (decode b cw) s = .next t ∧
    validBits b t =
      if cw.getLsbD 129 then (validBits b s).map (fun _ => false)
      else cw.getLsbD 128 :: (validBits b s).dropLast

/-- R103: every control word runs, in every state, at both blocks: no operation stops. -/
def Obligations.EveryControlWordRuns : Prop :=
  ∀ (b : Block) (cw : CtrlWord) (s : State), ∃ t, exec (decode b cw) s = .next t

/-- R115: an operation leaves the other block, its mark of log 10, the environment's queue and the free counters as they
were. -/
def Obligations.OperationLeavesTheOtherBlock : Prop :=
  ∀ (i : Instr) (s t : State), exec i s = .next t →
    (i.block = .sn4w32b → t.b6 = s.b6 ∧ t.booted6 = s.booted6) ∧
    (i.block = .sn6w8b → t.b4 = s.b4 ∧ t.booted4 = s.booted4) ∧
    t.events = s.events ∧ t.free4 = s.free4 ∧ t.free6 = s.free6

/-- R115, R15: edges of the two blocks commute, so the order the model runs them in is not observable. -/
def Obligations.EdgesOfDifferentBlocksCommute : Prop :=
  ∀ (b c : Block) (p q : Pins) (es : List Event) (s : State), b ≠ c →
    InputsDefined b p → InputsDefined c q →
    ∃ t, RunsTo 2 (s.setEvents (.edge b p :: .edge c q :: es)) t ∧
      RunsTo 2 (s.setEvents (.edge c q :: .edge b p :: es)) t

/-- R109, R71, R94: `rst = 1` wins: the same state whatever `in_valid` and `in_data` are, and no stage word written. -/
def Obligations.ResetWinsOverABeat : Prop :=
  ∀ (b : Block) (s : State) (v : Bool) (d : DataWord),
    exec (decode b (ctrlWord true v d)) s = exec (resetOf b) s ∧
    ∃ t, exec (resetOf b) s = .next t ∧ InResetState b t ∧ stageWords b t = stageWords b s

/-- R118: holding `rst` for several edges has the effect of one. -/
def Obligations.HeldResetIsOneReset : Prop :=
  ∀ (b : Block) (s : State) (cws : List CtrlWord), cws ≠ [] → (∀ w ∈ cws, CtrlWord.rst w = true) →
    ∃ t, RunsTo cws.length (s.drive b cws) t ∧ exec (resetOf b) (s.setEvents []) = .next t

/-! ## One step -/

/-- R46, R50: a step at a defined edge takes the event off the queue and runs the decoded operation, and changes
nothing else. -/
def Obligations.StepRunsTheDecodedOperation : Prop :=
  ∀ (b : Block) (cw : CtrlWord) (es : List Event) (s : State), s.events = edgeOf b cw :: es →
    step s = exec (decode b cw) (s.setEvents es)

/-- R117: with no edge nothing changes, for any number of steps, and a run goes on as if there had been no pause. -/
def Obligations.StoppedClockKeepsEverything : Prop :=
  ∀ (s : State), s.events = [] → ∀ n, RunsTo n s s ∧
    ∀ es, (∃ t, RunsTo n s t ∧ step (t.setEvents es) = step (s.setEvents es))

/-- R104: a cycle whose operation reads an undefined level is refused by name, and only such a cycle is. That a 6w8b
beat with an undefined padding bit runs (the last clause) is the model's reading, log 4, DEDUCED. -/
def Obligations.UndefinedLevelIsRefused : Prop :=
  ∀ (b : Block) (p : Pins) (es : List Event) (s : State), s.events = .edge b p :: es →
    (p.rst = .undef → step s = .refused (.undefinedRst b)) ∧
    (p.rst = .zero → p.inValid = .undef → step s = .refused (.undefinedInValid b)) ∧
    (p.rst = .zero → p.inValid = .one →
      (∃ k < (params b).n * (params b).w, p.inDataUndef.getLsbD k = true) →
      step s = .refused (.undefinedInData b)) ∧
    (p.rst = .one → ∃ t, step s = .next t) ∧
    (p.rst = .zero → p.inValid = .zero → ∃ t, step s = .next t) ∧
    (p.rst = .zero → p.inValid = .one →
      (∀ k < (params b).n * (params b).w, p.inDataUndef.getLsbD k = false) →
      ∃ t, step s = .next t)

/-- R51, R104: an undefined bit the operation ignores has no effect, and an undefined padding bit becomes some bit of
the padding (the model's reading, log 4, DEDUCED): for every value of the free bits. -/
def Obligations.IgnoredLevelsHaveNoEffect : Prop :=
  ∀ (b : Block) (p : Pins) (es : List Event) (s : State), s.events = .edge b p :: es →
    (p.rst = .one → ∀ (v : Bool) (d : DataWord), ∃ t u, step s = .next t ∧
      exec (decode b (ctrlWord true v d)) (s.setEvents es) = .next u ∧ SameMachine t u) ∧
    (p.rst = .zero → p.inValid = .zero → ∀ d : DataWord, ∃ t u, step s = .next t ∧
      exec (decode b (ctrlWord false false d)) (s.setEvents es) = .next u ∧ SameMachine t u) ∧
    (p.rst = .zero → p.inValid = .one →
      (∀ k < (params b).n * (params b).w, p.inDataUndef.getLsbD k = false) →
      ∃ (d : DataWord) (t u : State), (∀ k < 128, p.inDataUndef.getLsbD k = false → d.getLsbD k = p.inData.getLsbD k) ∧
        step s = .next t ∧ exec (decode b (ctrlWord false true d)) (s.setEvents es) = .next u ∧ SameMachine t u)

/-- R115, R117, R119 (the event is the model's, log 5, as is the mark, log 10): power loss of one block leaves the other,
its mark and counter, and the rest of the queue as they were, and the block not booted, whatever follows; a reset edge
of the block that follows boots it. -/
def Obligations.PowerLossKeepsTheOtherBlock : Prop :=
  ∀ (b : Block) (es : List Event) (s : State), s.events = .powerOn b :: es →
    ∃ t, step s = .next t ∧ t.events = es ∧ t.booted b = false ∧
      (b = .sn4w32b → t.b6 = s.b6 ∧ t.booted6 = s.booted6 ∧ t.free6 = s.free6) ∧
      (b = .sn6w8b → t.b4 = s.b4 ∧ t.booted4 = s.booted4 ∧ t.free4 = s.free4) ∧
      ∀ (v : Bool) (d : DataWord) (later : List Event), es = edgeOf b (ctrlWord true v d) :: later →
        ∃ u, step t = .next u ∧ InResetState b u ∧ u.events = later ∧
          (b = .sn4w32b → u.b6 = s.b6 ∧ u.booted6 = s.booted6) ∧
          (b = .sn6w8b → u.b4 = s.b4 ∧ u.booted4 = s.booted4)

/-! ## Invariants -/

/-- The machine after reset is in the reset state at both blocks (R30: every stage is empty; that both are booted is
log 10), and meets the invariant. -/
def Obligations.ResetMeetsInv : Prop := (∀ b, InResetState b State.reset) ∧ MachineInv State.reset

/-- R18, R19, R69, R70, R92, R93, R119: from any state in which every full stage of a booted block holds its rounds'
result, every step gives such a state, a loss of power (log 5) too. -/
def Obligations.StepKeepsInv : Prop :=
  ∀ s t : State, MachineInv s → step s = .next t → MachineInv t

/-- R72, R95, R121, R119: in a state that meets the invariant, and after any number of steps from it, what the outputs of
a booted block show as a beat is sorted. -/
def Obligations.OutputsOfARunAreSorted : Prop :=
  ∀ (n : Nat) (s t : State), MachineInv s → RunsTo n s t → OutputsSorted t

/-! ## Runs -/

/-- R22, R23: the outputs are the last stage, and nothing the environment has queued reaches them. -/
def Obligations.OutputsAreTheLastStage : Prop :=
  ∀ (s : State) (es : List Event),
    outValid .sn4w32b s = s.b4.v3 ∧ outData .sn4w32b s = s.b4.s3 ∧
    outValid .sn6w8b s = s.b6.qv5 ∧ outData .sn6w8b s = s.b6.q5 ∧
    ∀ b, outValid b (s.setEvents es) = outValid b s ∧ outData b (s.setEvents es) = outData b s

/-- R121: from any state, a beat not followed by a reset within the latency is on the outputs `LATENCY` edges later,
its own edge counted, as its network's word. -/
def Obligations.BeatAppearsAfterLatency : Prop :=
  ∀ (b : Block) (s : State) (cw : CtrlWord) (after : List CtrlWord),
    isBeat cw = true → after.length = latency b - 1 → (∀ w ∈ after, CtrlWord.rst w = false) →
    ∃ t, RunsTo (latency b) (s.drive b (cw :: after)) t ∧
      outValid b t = true ∧ outData b t = net b (CtrlWord.inData cw)

/-- R124: a beat with a reset edge less than `LATENCY` edges after it, or at its own edge, is never output: its cycle is
not observed, and everything that is observed is as if it had been a bubble, whatever came before and comes after. After
a reset edge exactly the beats after it are observed, whatever was in flight, and from a block not booted too. -/
def Obligations.ResetDiscardsBeatsInFlight : Prop :=
  ∀ (b : Block) (s : State) (before between rest : List CtrlWord) (d e out : DataWord) (v : Bool),
    (between.length < latency b - 1 →
      observation b (before ++ ctrlWord false true d :: (between ++ ctrlWord true v e :: rest)) s =
        observation b (before ++ ctrlWord false false 0#128 :: (between ++ ctrlWord true v e :: rest)) s ∧
      ∀ o, observation b (before ++ ctrlWord false true d :: (between ++ ctrlWord true v e :: rest)) s = some o →
        (before.length + (latency b - 1), out) ∉ o) ∧
    observation b (before ++ ctrlWord true true d :: rest) s =
      observation b (before ++ ctrlWord true false 0#128 :: rest) s ∧
    (∀ o, observation b (before ++ ctrlWord true true d :: rest) s = some o →
      (before.length + (latency b - 1), out) ∉ o) ∧
    observation b (ctrlWord true v e :: rest) s = some (expectedFrom b 0 (ctrlWord true v e :: rest))

/-- R129, with R43, R121, R124: what is observed of a run from the reset state is exactly what the rules give its control
words, beat by beat and in order. -/
def Obligations.ObservationIsTheExpectedOne : Prop :=
  ∀ (b : Block) (s : State) (cws : List CtrlWord), InResetState b s →
    observation b cws s = some (expectedFrom b 0 cws)

/-- R119, R120: one reset edge boots: a run that begins with it has an observation, and nothing of that depends on the
state before, the power-on state of both blocks included. -/
def Obligations.PowerOnStateIsNotObserved : Prop :=
  ∀ (b : Block) (s s' : State) (cw : CtrlWord) (cws : List CtrlWord), CtrlWord.rst cw = true →
    ∃ o, observation b (cw :: cws) s = some o ∧ observation b (cw :: cws) s' = some o

/-- R122: a beat at every edge gives an output beat in every cycle from `LATENCY-1` on, in input order. -/
def Obligations.BackToBackBeatsComeOutInOrder : Prop :=
  ∀ (b : Block) (s : State) (ds : List DataWord), InResetState b s → latency b ≤ ds.length →
    observation b (ds.map (ctrlWord false true)) s =
      some ((List.range (ds.length - (latency b - 1))).map
        fun k => (k + (latency b - 1), net b (ds.getD k 0#128)))

/-- R44, R56: after `LATENCY` bubbles no beat is in flight, the last stage counted too (log 12), from any state. -/
def Obligations.DrainEmptiesThePipeline : Prop :=
  ∀ (b : Block) (s : State),
    ∃ t, RunsTo (latency b) (s.drive b ((Line.drain.expand b).map encode)) t ∧ NoBeatInFlight b t ∧ t.events = []

/-! ## Traces -/

/-- R55 to R57: what the pseudo-operations stand for. -/
def Obligations.PseudoOperationsExpand : Prop :=
  (∀ n, (Line.wait n).expand .sn4w32b = List.replicate n (.nop4 0#128)) ∧
  (∀ n, (Line.wait n).expand .sn6w8b = List.replicate n (.nop6 0#128)) ∧
  Line.drain.expand .sn4w32b = (Line.wait 3).expand .sn4w32b ∧
  Line.drain.expand .sn6w8b = (Line.wait 5).expand .sn6w8b ∧
  Line.boot.expand .sn4w32b = [.rst4 false 0#128] ∧ Line.boot.expand .sn6w8b = [.rst6 false 0#128]

/-- R52, R53: the control words of a trace its block may hold are read by that block as the trace's operations. The
words of the lines follow in the lines' order; each operation line has its row's word, don't-care bits and a missing
`pad=` as 0; an operand in range is read as its value or bit pattern; and a text with an operand out of range is no
trace. -/
def Obligations.TraceWordsDecodeToItsLines : Prop :=
  (∀ t : Trace, t.wf = true → t.words.map (decode t.block) = t.lines.flatMap (Line.expand t.block)) ∧
  (∀ (b : Block) (xs ys : List Line), Trace.words { block := b, lines := xs ++ ys } =
    Trace.words { block := b, lines := xs } ++ Trace.words { block := b, lines := ys }) ∧
  Trace.words { block := .sn4w32b, lines := [.rst4] } = [0x200000000000000000000000000000000#130] ∧
  Trace.words { block := .sn4w32b, lines := [.nop4] } = [0x000000000000000000000000000000000#130] ∧
  Trace.words { block := .sn6w8b, lines := [.rst6] } = [0x200000000000000000000000000000000#130] ∧
  Trace.words { block := .sn6w8b, lines := [.nop6] } = [0x000000000000000000000000000000000#130] ∧
  (∀ e0 e1 e2 e3 : Literal, ∃ cw : CtrlWord,
    Trace.words { block := .sn4w32b, lines := [.sort4 e0 e1 e2 e3] } = [cw] ∧
    cw.getLsbD 129 = false ∧ cw.getLsbD 128 = true ∧
    cw.extractLsb' 0 32 = e0.bits 32 ∧ cw.extractLsb' 32 32 = e1.bits 32 ∧
    cw.extractLsb' 64 32 = e2.bits 32 ∧ cw.extractLsb' 96 32 = e3.bits 32) ∧
  (∀ (e0 e1 e2 e3 e4 e5 : Literal) (pad : Option Literal), ∃ cw : CtrlWord,
    Trace.words { block := .sn6w8b, lines := [.sort6b e0 e1 e2 e3 e4 e5 pad] } = [cw] ∧
    cw.getLsbD 129 = false ∧ cw.getLsbD 128 = true ∧
    cw.extractLsb' 0 8 = e0.bits 8 ∧ cw.extractLsb' 8 8 = e1.bits 8 ∧ cw.extractLsb' 16 8 = e2.bits 8 ∧
    cw.extractLsb' 24 8 = e3.bits 8 ∧ cw.extractLsb' 32 8 = e4.bits 8 ∧ cw.extractLsb' 40 8 = e5.bits 8 ∧
    (pad = none → cw.extractLsb' 48 80 = 0#80) ∧ (∀ p, pad = some p → cw.extractLsb' 48 80 = p.bits 80)) ∧
  (∀ W ∈ [8, 32],
    (∀ v : Int, Literal.wf W (.decimal v) = true ↔ -(2 ^ (W - 1) : Int) ≤ v ∧ v < 2 ^ (W - 1)) ∧
    (∀ d v : Nat, Literal.wf W (.hex d v) = true ↔ d = W / 4 ∧ v < 2 ^ W) ∧
    (∀ v : Int, Literal.wf W (.decimal v) = true → sval (Literal.bits W (.decimal v)) = v) ∧
    (∀ d v : Nat, Literal.wf W (.hex d v) = true → (Literal.bits W (.hex d v)).toNat = v)) ∧
  (∀ d v : Nat, padWf (some (.hex d v)) = true → d = 20 ∧ (Literal.bits 80 (.hex d v)).toNat = v) ∧
  (∀ (text : List Char) (t : Trace), readTrace text = some t → t.wf = true)

/-- R54: the written encodings of the rule's own examples. -/
def Obligations.WrittenEncodingHasTheExamples : Prop :=
  written (encode (.sort4 4#32 3#32 2#32 1#32)) = "0x1_00000001_00000002_00000003_00000004".toList ∧
  written (encode (.nop4 0#128)) = "0x0_00000000_00000000_00000000_00000000".toList ∧
  written (encode (.rst4 false 0#128)) = "0x2_00000000_00000000_00000000_00000000".toList ∧
  written (encode (.sort6b 6#8 5#8 4#8 3#8 2#8 1#8 0#80)) = "0x1_00000000_00000000_00000102_03040506".toList

/-! ## The caller-side mapping -/

/-- R38 (byte order of the optional mapping): what a store puts into the caller's memory, byte by byte, and that it
changes no other byte. -/
def Obligations.StoreWritesItsBytesOnly : Prop :=
  (∀ (m m' : Memory) (base : Nat) (out : DataWord), store4 m base out = some m' →
    (∀ k < 16, m'.byte (base + k) = some (lane 8 out k)) ∧
    ∀ a, (a < base ∨ base + 16 ≤ a) → m'.byte a = m.byte a) ∧
  (∀ (m m' : Memory) (base : Nat) (out : DataWord), store6 m base out = some m' →
    (∀ k < 6, m'.byte (base + k) = some (lane 8 out k)) ∧
    ∀ a, (a < base ∨ base + 6 ≤ a) → m'.byte a = m.byte a)

/-- R36, R38: what a load gives is the buffer's elements, lane by lane, and a stored word is loaded again. -/
def Obligations.LoadReadsTheBuffer : Prop :=
  (∀ (m : Memory) (base : Nat) (x : DataWord), load4 m base = some x →
    ∀ k < 16, m.byte (base + k) = some (lane 8 x k)) ∧
  (∀ (m : Memory) (base : Nat) (pad : BitVec 80) (x : DataWord), load6 m base pad = some x →
    padding x = pad ∧ ∀ k < 6, m.byte (base + k) = some (lane 8 x k)) ∧
  (∀ (m m' : Memory) (base : Nat) (out : DataWord), store4 m base out = some m' → load4 m' base = some out) ∧
  (∀ (m m' : Memory) (base : Nat) (pad : BitVec 80) (out : DataWord), store6 m base out = some m' →
    load6 m' base pad = some ((pad.setWidth 128 <<< 48) ||| (out &&& 0x0000FFFFFFFFFFFF#128)))

/-- R36, R38, R72, R121: the in-place call on a 4w32b buffer the caller owns sorts it, from any state of the machine in
which the block is booted (log 10), and changes no other byte. The call (one beat and `LATENCY-1` bubbles) and the
caller's memory, at any alignment, are the model's choice, log 7. -/
def Obligations.InPlaceCall4Sorts : Prop :=
  ∀ (m : Memory) (base : Nat) (s : State), s.booted .sn4w32b = true → (∀ k < 16, (m.byte (base + k)).isSome = true) →
    ∃ m' x y, load4 m base = some x ∧ call4 m base s = some m' ∧ load4 m' base = some y ∧
      lanes 32 4 y = sortedW (lanes 32 4 x) ∧
      ∀ a, (a < base ∨ base + 16 ≤ a) → m'.byte a = m.byte a

/-- R36, R38, R95, R121: the in-place call on a 6w8b buffer the caller owns sorts it, whatever padding is driven, from any
state of the machine in which the block is booted (log 10), and changes no other byte. The call (one beat and
`LATENCY-1` bubbles) and the caller's memory, at any alignment, are the model's choice, log 7. -/
def Obligations.InPlaceCall6Sorts : Prop :=
  ∀ (m : Memory) (base : Nat) (pad : BitVec 80) (s : State), s.booted .sn6w8b = true →
    (∀ k < 6, (m.byte (base + k)).isSome = true) →
    ∃ m' x y, load6 m base pad = some x ∧ call6 m base pad s = some m' ∧ load6 m' base pad = some y ∧
      lanes 8 6 y = sortedW (lanes 8 6 x) ∧
      ∀ a, (a < base ∨ base + 6 ≤ a) → m'.byte a = m.byte a

/-! ## Before boot -/

/-- R119, R129, R130: while a block has had no reset edge since its power-on, a run that does not begin with one has no
observation, and no call takes its output; a run at a booted block has one. Which uses of the outputs that shuts out is the model's choice, log 10. -/
def Obligations.NoOutputIsConsumedBeforeBoot : Prop :=
  ∀ (b : Block) (s : State),
    (s.booted b = false →
      (∀ cw cws, CtrlWord.rst cw = false → observation b (cw :: cws) s = none) ∧
      (∀ x, sortBeat b x s = none) ∧
      (b = .sn4w32b → ∀ m base, call4 m base s = none) ∧
      (b = .sn6w8b → ∀ m base pad, call6 m base pad s = none)) ∧
    (s.booted b = true → ∀ cws, ∃ o, observation b cws s = some o)
end

