-- ==== Sys2Proof/Laws/Flags.lean ====
section
/-! SUPPORT. The signed reading and the comparisons built on it. -/

namespace Sys2Proof.Machine

/-- `sval_W` is Lean's own two's complement reading. -/
theorem sval_eq_toInt {W : Nat} (b : BitVec W) : sval b = b.toInt := by
  unfold sval
  rw [BitVec.toInt_eq_msb_cond]
  split <;> simp

/-- Equal values are equal bit patterns (R11, R12). -/
theorem sval_injective {W : Nat} {a b : BitVec W} (h : sval a = sval b) : a = b := by
  rw [sval_eq_toInt, sval_eq_toInt] at h
  exact BitVec.eq_of_toInt_eq h

@[simp] theorem sgt_eq_true {W : Nat} (a b : BitVec W) : sgt a b = true ↔ sval b < sval a := by
  simp [sgt]

@[simp] theorem sgt_self {W : Nat} (a : BitVec W) : sgt a a = false := by simp [sgt]

theorem sval_smin {W : Nat} (a b : BitVec W) : sval (smin a b) = min (sval a) (sval b) := by
  unfold smin
  split <;> omega

theorem sval_smax {W : Nat} (a b : BitVec W) : sval (smax a b) = max (sval a) (sval b) := by
  unfold smax
  split <;> omega

theorem smin_comm {W : Nat} (a b : BitVec W) : smin a b = smin b a :=
  sval_injective (by rw [sval_smin, sval_smin, min_comm])

theorem smax_comm {W : Nat} (a b : BitVec W) : smax a b = smax b a :=
  sval_injective (by rw [sval_smax, sval_smax, max_comm])

@[simp] theorem smin_self {W : Nat} (a : BitVec W) : smin a a = a := by simp [smin]

@[simp] theorem smax_self {W : Nat} (a : BitVec W) : smax a a = a := by simp [smax]

/-- A mask is all ones where the partner is greater (R64, R87). -/
theorem laneMask_of_gt {W : Nat} {partner own : BitVec W} (h : sval own < sval partner) :
    laneMask partner own = BitVec.allOnes W := by simp [laneMask, h]

/-- A mask is 0 where the partner is not greater, ties included (R64, R75, R87, R100). -/
theorem laneMask_of_not_gt {W : Nat} {partner own : BitVec W} (h : ¬ sval own < sval partner) :
    laneMask partner own = 0#W := by simp [laneMask, h]

/-- The two values a pair holds after a compare-and-swap are the two it held (R12). -/
theorem smin_smax_perm {W : Nat} (a b : BitVec W) : [smin a b, smax a b].Perm [a, b] := by
  unfold smin smax
  rcases lt_trichotomy (sval a) (sval b) with h | h | h
  · simp [h.le, not_le.2 h]
  · obtain rfl := sval_injective h
    simp
  · simp [h.le, not_le.2 h, List.Perm.swap]

end Sys2Proof.Machine
end

