-- ==== Sys2Proof/Laws/Lanes.lean ====
section
/-! SUPPORT. Lanes, packing and the control word's fields: what each reads back. -/

namespace Sys2Proof.Machine

theorem getLsbD_lane (W : Nat) (v : DataWord) (i k : Nat) :
    (lane W v i).getLsbD k = (decide (k < W) && v.getLsbD (W * i + k)) := by
  simp [lane]

theorem lane_pack {W : Nat} (es : List (BitVec W)) (i : Nat) (hi : i < es.length)
    (hl : W * es.length ≤ 128) : lane W (pack W es) i = es.getD i 0#W := by
  induction es generalizing i with
  | nil => simp at hi
  | cons e es ih =>
    simp only [List.length_cons, Nat.mul_succ] at hl hi
    cases i with
    | zero =>
      apply BitVec.eq_of_getLsbD_eq
      intro k hk
      simp [lane, pack, hk]
      intro
      omega
    | succ i =>
      rw [List.getD_cons_succ, ← ih i (by omega) (by omega)]
      apply BitVec.eq_of_getLsbD_eq
      intro k hk
      have hshift : W * (i + 1) + k = W + (W * i + k) := by ring
      have hle : W * (i + 1) ≤ W * es.length := Nat.mul_le_mul_left _ (by omega)
      have hlt : W + (W * i + k) < 128 := by rw [Nat.mul_succ] at hle; omega
      simp only [lane, pack, BitVec.getLsbD_extractLsb', BitVec.getLsbD_or, BitVec.getLsbD_shiftLeft,
        BitVec.getLsbD_setWidth, hshift, hlt, hk]
      simp

theorem lanes_pack {W : Nat} (es : List (BitVec W)) (hl : W * es.length ≤ 128) :
    lanes W es.length (pack W es) = es := by
  apply List.ext_getElem
  · simp [lanes]
  · intro i h₁ h₂
    simp [lanes, lane_pack es i h₂ hl, h₂]

/-- Two words that agree in every lane are equal, when the lanes cover the word. -/
theorem eq_of_lanes {W n : Nat} (hW : 0 < W) (hn : W * n = 128) {x y : DataWord}
    (h : ∀ i < n, lane W x i = lane W y i) : x = y := by
  apply BitVec.eq_of_getLsbD_eq
  intro k hk
  have hi : k / W < n := (Nat.div_lt_iff_lt_mul hW).2 (by rw [Nat.mul_comm]; omega)
  have hb := congrArg (fun v => v.getLsbD (k % W)) (h _ hi)
  simp only [getLsbD_lane, Nat.mod_lt _ hW, decide_true, Bool.true_and] at hb
  rwa [Nat.div_add_mod] at hb

theorem pack_lanes {W n : Nat} (hW : 0 < W) (hn : W * n = 128) (x : DataWord) :
    pack W (lanes W n x) = x := by
  apply eq_of_lanes hW hn
  intro i hi
  rw [lane_pack _ _ (by simpa [lanes] using hi) (by simp [lanes, hn])]
  simp [lanes, hi]

/-- The elements of a 4w32b beat are its lanes (R47). -/
theorem lanes_beat4 (e0 e1 e2 e3 : BitVec 32) : lanes 32 4 (beat4 e0 e1 e2 e3) = [e0, e1, e2, e3] :=
  lanes_pack [e0, e1, e2, e3] (by simp)

/-- The elements of a 6w8b beat are its active lanes (R48). -/
theorem lanes_beat6 (e0 e1 e2 e3 e4 e5 : BitVec 8) (pad : BitVec 80) :
    lanes 8 6 (beat6 e0 e1 e2 e3 e4 e5 pad) = [e0, e1, e2, e3, e4, e5] := by
  rw [← lanes_pack [e0, e1, e2, e3, e4, e5] (by simp)]
  apply List.map_congr_left
  intro i hi
  have hi : i < 6 := by simpa using hi
  apply BitVec.eq_of_getLsbD_eq
  intro k hk
  have h48 : 8 * i + k < 48 := by omega
  simp [getLsbD_lane, beat6, h48]

theorem pack_bits_above {W : Nat} (es : List (BitVec W)) (k : Nat) (hk : W * es.length ≤ k) :
    (pack W es).getLsbD k = false := by
  induction es generalizing k with
  | nil => simp [pack]
  | cons e es ih =>
    simp only [List.length_cons, Nat.mul_succ] at hk
    simp only [pack, BitVec.getLsbD_or, BitVec.getLsbD_shiftLeft, BitVec.getLsbD_setWidth]
    rw [ih (k - W) (by omega), BitVec.getLsbD_of_ge e k (by omega)]
    simp

/-- The padding of a 6w8b beat is its bits 127:48 (R48). -/
theorem padding_beat6 (e0 e1 e2 e3 e4 e5 : BitVec 8) (pad : BitVec 80) :
    padding (beat6 e0 e1 e2 e3 e4 e5 pad) = pad := by
  apply BitVec.eq_of_getLsbD_eq
  intro k hk
  have hab := pack_bits_above [e0, e1, e2, e3, e4, e5] (48 + k) (by simp)
  have h2 : 48 + k < 128 := by omega
  simp only [padding, beat6, BitVec.getLsbD_extractLsb', BitVec.getLsbD_or, hab, BitVec.getLsbD_shiftLeft,
    BitVec.getLsbD_setWidth, hk, h2]
  have h3 : k < 128 := by omega
  simp [hk, h3]

theorem lanes_four (x : DataWord) : lanes 32 4 x = [lane 32 x 0, lane 32 x 1, lane 32 x 2, lane 32 x 3] := rfl

theorem lanes_six (x : DataWord) :
    lanes 8 6 x = [lane 8 x 0, lane 8 x 1, lane 8 x 2, lane 8 x 3, lane 8 x 4, lane 8 x 5] := rfl

/-- The active lanes of 6w8b are the first six of its sixteen (R14). -/
theorem lanes_six_eq_take (x : DataWord) : lanes 8 6 x = (lanes 8 16 x).take 6 := rfl

@[simp] theorem length_lanes (W n : Nat) (x : DataWord) : (lanes W n x).length = n := by simp [lanes]

theorem getElem?_lanes (W n : Nat) (x : DataWord) (k : Nat) (h : k < n) :
    (lanes W n x)[k]? = some (lane W x k) := by simp [lanes, h]

/-- A 4w32b beat built from a word's lanes is the word (R47). -/
theorem beat4_lanes (x : DataWord) : beat4 (lane 32 x 0) (lane 32 x 1) (lane 32 x 2) (lane 32 x 3) = x :=
  pack_lanes (W := 32) (n := 4) (by omega) (by omega) x

/-- Two 6w8b words with the same active lanes and the same padding are the same word (R48). -/
theorem eq_of_lanes6_of_padding {x y : DataWord} (h : lanes 8 6 x = lanes 8 6 y) (hp : padding x = padding y) :
    x = y := by
  apply BitVec.eq_of_getLsbD_eq
  intro k hk
  by_cases h48 : k < 48
  · have hl : lane 8 x (k / 8) = lane 8 y (k / 8) := by
      have hi : k / 8 < 6 := by omega
      have := congrArg (fun l => l[k / 8]?) h
      simpa [getElem?_lanes _ _ _ _ hi] using this
    have hb := congrArg (fun v => v.getLsbD (k % 8)) hl
    have h8 : k % 8 < 8 := by omega
    simp only [getLsbD_lane, Nat.div_add_mod] at hb
    simpa [h8] using hb
  · have hb := congrArg (fun v => v.getLsbD (k - 48)) hp
    have h2 : 48 + (k - 48) = k := by omega
    have h3 : k - 48 < 80 := by omega
    simp only [padding, BitVec.getLsbD_extractLsb', h2, h3] at hb
    simpa using hb

/-- A 6w8b beat built from a word's active lanes and its padding is the word (R48). -/
theorem beat6_lanes (x : DataWord) :
    beat6 (lane 8 x 0) (lane 8 x 1) (lane 8 x 2) (lane 8 x 3) (lane 8 x 4) (lane 8 x 5) (padding x) = x :=
  eq_of_lanes6_of_padding (lanes_beat6 ..) (padding_beat6 ..)

theorem getLsbD_ctrlWord (r v : Bool) (d : DataWord) (k : Nat) :
    (ctrlWord r v d).getLsbD k = (d.getLsbD k || (decide (k = 128) && v) || (decide (k = 129) && r)) := by
  simp only [ctrlWord, BitVec.getLsbD_or, BitVec.getLsbD_shiftLeft, BitVec.getLsbD_setWidth, BitVec.getLsbD_ofBool]
  rcases lt_or_ge k 128 with h | h
  · have h1 : k ≠ 128 := by omega
    have h2 : k ≠ 129 := by omega
    have h3 : k < 129 := by omega
    have h4 : k < 130 := by omega
    simp [h, h1, h2, h3, h4]
  · rw [BitVec.getLsbD_of_ge d k h]
    rcases lt_or_ge k 130 with h5 | h5
    · interval_cases k <;> simp
    · have h1 : k ≠ 128 := by omega
      have h2 : k ≠ 129 := by omega
      have h6 : ¬ k < 130 := by omega
      simp [h1, h2, h6]

@[simp] theorem rst_ctrlWord (r v : Bool) (d : DataWord) : CtrlWord.rst (ctrlWord r v d) = r := by
  rw [CtrlWord.rst, getLsbD_ctrlWord, BitVec.getLsbD_of_ge d 129 (by omega)]
  simp

@[simp] theorem inValid_ctrlWord (r v : Bool) (d : DataWord) : CtrlWord.inValid (ctrlWord r v d) = v := by
  rw [CtrlWord.inValid, getLsbD_ctrlWord, BitVec.getLsbD_of_ge d 128 (by omega)]
  simp

@[simp] theorem inData_ctrlWord (r v : Bool) (d : DataWord) : CtrlWord.inData (ctrlWord r v d) = d := by
  apply BitVec.eq_of_getLsbD_eq
  intro k hk
  have h1 : k ≠ 128 := by omega
  have h2 : k ≠ 129 := by omega
  rw [CtrlWord.inData, BitVec.getLsbD_extractLsb', Nat.zero_add, getLsbD_ctrlWord]
  simp [hk, h1, h2]

/-- A field of a control word below bit 128 is that field of its data word (R46). -/
theorem extractLsb'_ctrlWord (r v : Bool) (d : DataWord) (start len : Nat) (h : start + len ≤ 128) :
    (ctrlWord r v d).extractLsb' start len = d.extractLsb' start len := by
  apply BitVec.eq_of_getLsbD_eq
  intro k hk
  have h1 : start + k ≠ 128 := by omega
  have h2 : start + k ≠ 129 := by omega
  simp [getLsbD_ctrlWord, h1, h2]

/-- The fields of a 4w32b beat (R47). -/
theorem fields_beat4 (e0 e1 e2 e3 : BitVec 32) :
    (beat4 e0 e1 e2 e3).extractLsb' 0 32 = e0 ∧ (beat4 e0 e1 e2 e3).extractLsb' 32 32 = e1 ∧
    (beat4 e0 e1 e2 e3).extractLsb' 64 32 = e2 ∧ (beat4 e0 e1 e2 e3).extractLsb' 96 32 = e3 := by
  have h := lanes_beat4 e0 e1 e2 e3
  rw [lanes_four] at h
  simpa [lane] using h

/-- The element fields of a 6w8b beat (R48). -/
theorem fields_beat6 (e0 e1 e2 e3 e4 e5 : BitVec 8) (pad : BitVec 80) :
    (beat6 e0 e1 e2 e3 e4 e5 pad).extractLsb' 0 8 = e0 ∧ (beat6 e0 e1 e2 e3 e4 e5 pad).extractLsb' 8 8 = e1 ∧
    (beat6 e0 e1 e2 e3 e4 e5 pad).extractLsb' 16 8 = e2 ∧ (beat6 e0 e1 e2 e3 e4 e5 pad).extractLsb' 24 8 = e3 ∧
    (beat6 e0 e1 e2 e3 e4 e5 pad).extractLsb' 32 8 = e4 ∧ (beat6 e0 e1 e2 e3 e4 e5 pad).extractLsb' 40 8 = e5 := by
  have h := lanes_beat6 e0 e1 e2 e3 e4 e5 pad
  rw [lanes_six] at h
  simpa [lane] using h

/-- A control word is its three fields (R46). -/
theorem ctrlWord_fields (cw : CtrlWord) :
    ctrlWord (CtrlWord.rst cw) (CtrlWord.inValid cw) (CtrlWord.inData cw) = cw := by
  apply BitVec.eq_of_getLsbD_eq
  intro k hk
  rw [getLsbD_ctrlWord, CtrlWord.rst, CtrlWord.inValid, CtrlWord.inData, BitVec.getLsbD_extractLsb', Nat.zero_add]
  rcases lt_trichotomy k 128 with h | h | h
  · have h1 : k ≠ 128 := by omega
    have h2 : k ≠ 129 := by omega
    simp [h, h1, h2]
  · subst h
    simp
  · obtain rfl : k = 129 := by omega
    simp

/-- The wires of a defined control word are read as that word, whatever the free value is. -/
@[simp] theorem word_pinsOf (cw free : CtrlWord) : (pinsOf cw).word free = cw := by
  conv_rhs => rw [← ctrlWord_fields cw]
  unfold Pins.word pinsOf
  cases CtrlWord.rst cw <;> cases CtrlWord.inValid cw <;> simp [Level.bit]

/-- A defined control word is never refused, and takes no free value. -/
@[simp] theorem samplePins_pinsOf (b : Block) (cw : CtrlWord) (n : Nat) :
    samplePins b (pinsOf cw) n = .ok (cw, n) := by
  have hr : (pinsOf cw).refusal b = none := by
    unfold Pins.refusal pinsOf
    cases CtrlWord.rst cw <;> cases CtrlWord.inValid cw <;> simp
  have hd : (pinsOf cw).defined = true := by
    unfold Pins.defined pinsOf
    cases CtrlWord.rst cw <;> cases CtrlWord.inValid cw <;> simp
  simp [samplePins, hr, hd]

/-- A defined edge at the head of the queue gives its control word, and only the queue moves. -/
theorem fetch_edgeOf (b : Block) (cw : CtrlWord) (es : List Event) (s : State)
    (h : s.events = edgeOf b cw :: es) : fetch s = .word b cw (s.setEvents es) := by
  have hf : (s.setEvents es).setFree b (s.free b) = s.setEvents es := by cases b <;> rfl
  simp [fetch, h, edgeOf, hf]

/-- Lane `i` of a round is the lane of its input that index `i` selects (R65, R88). -/
theorem lane_roundWord {W : Nat} (g : Config.Params) (t : RoundTable W) (x : DataWord) (i : Nat)
    (hi : i < g.l) (hg : W * g.l ≤ 128) :
    lane W (roundWord g t x) i = lane W x (selectedLane g.idxBits (indexAt t x i)) := by
  rw [roundWord, lane_pack _ _ (by simpa using hi) (by simpa using hg)]
  simp [hi]

end Sys2Proof.Machine
end

