-- ==== Sys2Proof/Laws/Memory.lean ====
section
/-! SUPPORT. The caller's memory: every write keeps the canonical form, and what a byte reads as after it. -/

namespace Sys2Proof.Machine

/-- A byte write changes no address. -/
theorem Memory.setByte_addresses {m m' : Memory} {a : Nat} {v : BitVec 8} (h : m.setByte a v = some m') :
    m'.map Prod.fst = m.map Prod.fst := by
  induction m generalizing m' with
  | nil => simp [Memory.setByte] at h
  | cons c cs ih =>
    unfold Memory.setByte at h
    split at h
    · rename_i hc
      cases h
      simp [hc]
    · obtain ⟨cs', hcs, rfl⟩ := Option.map_eq_some_iff.1 h
      simp [ih hcs]

/-- Writes from `base` on change no address. -/
theorem Memory.setBytes_addresses {m m' : Memory} {base : Nat} {bs : List (BitVec 8)}
    (h : m.setBytes base bs = some m') : m'.map Prod.fst = m.map Prod.fst := by
  induction bs generalizing m base with
  | nil => cases h; rfl
  | cons b bs ih =>
    unfold Memory.setBytes at h
    split at h
    · rename_i m₁ hm
      rw [ih h, Memory.setByte_addresses hm]
    · cases h

theorem Memory.wf_of_addresses {m m' : Memory} (ha : m'.map Prod.fst = m.map Prod.fst) (h : m.wf) : m'.wf := by
  have hm : (m.map Prod.fst).Pairwise (· < ·) := by rwa [List.pairwise_map]
  rw [← ha, List.pairwise_map] at hm
  exact hm

/-- Every store keeps the canonical form. -/
theorem Memory.write_wf {m m' : Memory} {base n : Nat} {v : DataWord} (h : m.write base n v = some m')
    (hm : m.wf) : m'.wf :=
  Memory.wf_of_addresses (Memory.setBytes_addresses h) hm

theorem store4_wf {m m' : Memory} {base : Nat} {out : DataWord} (h : store4 m base out = some m')
    (hm : m.wf) : m'.wf := Memory.write_wf h hm

theorem store6_wf {m m' : Memory} {base : Nat} {out : DataWord} (h : store6 m base out = some m')
    (hm : m.wf) : m'.wf := by
  unfold store6 at h
  split at h
  · rename_i m₁ h₁
    exact Memory.write_wf h (Memory.write_wf h₁ hm)
  · cases h

/-- A byte reads as what was written to it, and every other byte as before. -/
theorem Memory.byte_setByte {m m' : Memory} {a : Nat} {v : BitVec 8} (h : m.setByte a v = some m') (x : Nat) :
    m'.byte x = if x = a then some v else m.byte x := by
  induction m generalizing m' with
  | nil => simp [Memory.setByte] at h
  | cons c cs ih =>
    unfold Memory.setByte at h
    split at h
    · rename_i hc
      cases h
      by_cases hx : x = a
      · simp [Memory.byte, hx]
      · simp [Memory.byte, hx, hc, Ne.symm hx]
    · rename_i hc
      obtain ⟨cs', hcs, rfl⟩ := Option.map_eq_some_iff.1 h
      by_cases hcx : c.1 = x
      · have hx : x ≠ a := fun hxa => hc (hcx.trans hxa)
        simp [Memory.byte, hcx, hx]
      · simp [Memory.byte, hcx, ih hcs]

/-- A byte can be written where it can be read. -/
theorem Memory.setByte_isSome {m : Memory} {a : Nat} {v : BitVec 8} (h : (m.byte a).isSome = true) :
    (m.setByte a v).isSome = true := by
  induction m with
  | nil => simp [Memory.byte] at h
  | cons c cs ih =>
    unfold Memory.setByte
    by_cases hc : c.1 = a
    · simp [hc]
    · rw [if_neg hc, Option.isSome_map]
      exact ih (by simpa [Memory.byte, hc] using h)

/-- After writes from `base` on: the written bytes, and every other byte as before. -/
theorem Memory.byte_setBytes {m m' : Memory} {base : Nat} {bs : List (BitVec 8)}
    (h : m.setBytes base bs = some m') (x : Nat) :
    m'.byte x = if base ≤ x ∧ x < base + bs.length then bs[x - base]? else m.byte x := by
  induction bs generalizing m base with
  | nil =>
    cases h
    rw [if_neg (by simp)]
  | cons b bs ih =>
    unfold Memory.setBytes at h
    split at h
    · rename_i m₁ hm
      rw [ih h, Memory.byte_setByte hm]
      rcases lt_trichotomy x base with hx | rfl | hx
      · rw [if_neg (by omega), if_neg (by omega), if_neg (by omega)]
      · rw [if_neg (by omega), if_pos rfl, if_pos (by simp)]
        simp
      · by_cases hlt : x < base + 1 + bs.length
        · rw [if_pos (by omega), if_pos (by simp; omega)]
          rw [show x - base = (x - (base + 1)) + 1 by omega, List.getElem?_cons_succ]
        · rw [if_neg (by omega), if_neg (by omega), if_neg (by simp; omega)]
    · cases h

/-- Bytes can be written where they can be read. -/
theorem Memory.setBytes_isSome {m : Memory} {base : Nat} {bs : List (BitVec 8)}
    (h : ∀ k < bs.length, (m.byte (base + k)).isSome = true) : (m.setBytes base bs).isSome = true := by
  induction bs generalizing m base with
  | nil => rfl
  | cons b bs ih =>
    obtain ⟨m₁, hm⟩ := Option.isSome_iff_exists.1
      (Memory.setByte_isSome (v := b) (by simpa using h 0 (by simp)) : (m.setByte base b).isSome = true)
    simp only [Memory.setBytes, hm]
    apply ih
    intro k hk
    rw [Memory.byte_setByte hm, if_neg (by omega)]
    simpa [Nat.add_assoc, Nat.add_comm 1 k] using h (k + 1) (by simp; omega)

/-- A block of bytes is read where each of them is, and is those bytes in order. -/
theorem Memory.bytes_eq_some {m : Memory} {base n : Nat} {bs : List (BitVec 8)} :
    m.bytes base n = some bs ↔ bs.length = n ∧ ∀ k < n, m.byte (base + k) = bs[k]? := by
  induction n generalizing base bs with
  | zero =>
    simp only [Memory.bytes, Option.some.injEq, Nat.not_lt_zero, false_implies, implies_true, and_true,
      List.length_eq_zero_iff]
    exact eq_comm
  | succ n ih =>
    unfold Memory.bytes
    cases hb : m.byte base with
    | none =>
      constructor
      · intro h
        cases h
      · rintro ⟨hl, hk⟩
        have h0 := hk 0 (by omega)
        rw [Nat.add_zero, hb, eq_comm, List.getElem?_eq_none_iff] at h0
        omega
    | some b =>
      cases hr : m.bytes (base + 1) n with
      | none =>
        constructor
        · intro h
          cases h
        · rintro ⟨hl, hk⟩
          cases bs with
          | nil => simp at hl
          | cons c cs =>
            have hcs : m.bytes (base + 1) n = some cs := by
              rw [ih]
              refine ⟨by simpa using hl, fun k hk' => ?_⟩
              have hs := hk (k + 1) (by omega)
              rwa [List.getElem?_cons_succ, show base + (k + 1) = base + 1 + k by omega] at hs
            rw [hr] at hcs
            cases hcs
      | some rest =>
        have hrest := (ih (base := base + 1) (bs := rest)).1 hr
        simp only [Option.some.injEq]
        constructor
        · rintro rfl
          refine ⟨by simp [hrest.1], fun k hk => ?_⟩
          cases k with
          | zero => simpa using hb
          | succ k =>
            rw [List.getElem?_cons_succ, show base + (k + 1) = base + 1 + k by omega]
            exact hrest.2 k (by omega)
        · rintro ⟨hl, hk⟩
          cases bs with
          | nil => simp at hl
          | cons c cs =>
            have h0 := hk 0 (by omega)
            rw [Nat.add_zero, hb, List.getElem?_cons_zero, Option.some.injEq] at h0
            have hcs : m.bytes (base + 1) n = some cs := by
              rw [ih]
              refine ⟨by simpa using hl, fun k hk' => ?_⟩
              have hs := hk (k + 1) (by omega)
              rwa [List.getElem?_cons_succ, show base + (k + 1) = base + 1 + k by omega] at hs
            rw [hr, Option.some.injEq] at hcs
            rw [h0, hcs]

/-- After a store of `n` bytes: the bytes of the word, and every other byte as before. -/
theorem Memory.byte_write {m m' : Memory} {base n : Nat} {v : DataWord} (h : m.write base n v = some m') (x : Nat) :
    m'.byte x = if base ≤ x ∧ x < base + n then some (lane 8 v (x - base)) else m.byte x := by
  rw [Memory.byte_setBytes h x, length_lanes]
  by_cases hx : base ≤ x ∧ x < base + n
  · rw [if_pos hx, if_pos hx, getElem?_lanes _ _ _ _ (by omega)]
  · rw [if_neg hx, if_neg hx]

/-- A load of `n` bytes gives a word whose lanes are those bytes. -/
theorem Memory.byte_of_read {m : Memory} {base n : Nat} {x : DataWord} (hn : 8 * n ≤ 128)
    (h : m.read base n = some x) : ∀ k < n, m.byte (base + k) = some (lane 8 x k) := by
  obtain ⟨bs, hb, rfl⟩ := Option.map_eq_some_iff.1 h
  obtain ⟨hl, hk⟩ := Memory.bytes_eq_some.1 hb
  intro k hk'
  rw [hk k hk', lane_pack bs k (by omega) (by omega)]
  simp [hl, hk']

/-- A load gives a word wherever every byte can be read. -/
theorem Memory.read_of_bytes {m : Memory} {base n : Nat} (f : Nat → BitVec 8)
    (h : ∀ k < n, m.byte (base + k) = some (f k)) : m.read base n = some (pack 8 ((List.range n).map f)) := by
  have hb : m.bytes base n = some ((List.range n).map f) :=
    Memory.bytes_eq_some.2 ⟨by simp, fun k hk => by rw [h k hk]; simp [hk]⟩
  rw [Memory.read, hb, Option.map_some]

end Sys2Proof.Machine
end

