-- ==== Sys2Proof/Laws/Network.lean ====
section
/-! SUPPORT. Compare-and-swap sequences: they rearrange, they compose, they do not touch the lanes behind them, and
the 0-1 principle (R61, R81): a sequence that sorts every list of truth values sorts every list. -/

namespace Sys2Proof.Machine

variable {W : Nat}

/-! ## The sorted arrangement -/

theorem insertSorted_perm (e : BitVec W) (es : List (BitVec W)) : (insertSorted e es).Perm (e :: es) := by
  induction es with
  | nil => rfl
  | cons x xs ih =>
    unfold insertSorted
    split
    · rfl
    · exact (ih.cons x).trans (List.Perm.swap ..)

theorem sortedW_perm (es : List (BitVec W)) : (sortedW es).Perm es := by
  induction es with
  | nil => rfl
  | cons x xs ih => exact (insertSorted_perm _ _).trans (ih.cons x)

theorem insertSorted_nonDescending (e : BitVec W) (es : List (BitVec W)) (h : NonDescending es) :
    NonDescending (insertSorted e es) := by
  unfold NonDescending at *
  induction es with
  | nil => simp [insertSorted]
  | cons x xs ih =>
    rw [List.pairwise_cons] at h
    unfold insertSorted
    split
    · rename_i hle
      rw [List.pairwise_cons, List.pairwise_cons]
      refine ⟨fun y hy => ?_, h⟩
      rcases List.mem_cons.1 hy with rfl | hy
      · exact hle
      · exact hle.trans (h.1 y hy)
    · rename_i hle
      rw [List.pairwise_cons]
      refine ⟨fun y hy => ?_, ih h.2⟩
      rcases List.mem_cons.1 ((insertSorted_perm e xs).mem_iff.1 hy) with rfl | hy
      · omega
      · exact h.1 y hy

theorem sortedW_nonDescending (es : List (BitVec W)) : NonDescending (sortedW es) := by
  induction es with
  | nil => simp [sortedW, NonDescending]
  | cons x xs ih => exact insertSorted_nonDescending _ _ ih

/-! ## Sequences of compare-and-swap pairs -/

@[simp] theorem length_casPair (ij : Nat × Nat) (xs : List (BitVec W)) : (casPair ij xs).length = xs.length := by
  simp [casPair]

theorem casAll_append (ps qs : List (Nat × Nat)) (xs : List (BitVec W)) :
    casAll qs (casAll ps xs) = casAll (ps ++ qs) xs := by simp [casAll, List.foldl_append]

/-- Pairs among the first `n` lanes do to those lanes what they do to them alone. -/
theorem casAll_take {n : Nat} (ps : List (Nat × Nat)) (xs : List (BitVec W))
    (h : ∀ ij ∈ ps, ij.1 < n ∧ ij.2 < n) : (casAll ps xs).take n = casAll ps (xs.take n) := by
  induction ps generalizing xs with
  | nil => rfl
  | cons p ps ih =>
    have hp := h p (by simp)
    have hc : (casPair p xs).take n = casPair p (xs.take n) := by
      simp [casPair, List.take_set, hp]
    show (casAll ps (casPair p xs)).take n = casAll ps (casPair p (xs.take n))
    rw [ih _ (fun ij hij => h ij (by simp [hij])), hc]

/-- A compare-and-swap rearranges (R12). -/
theorem casPair_perm (ij : Nat × Nat) (xs : List (BitVec W)) (h1 : ij.1 < ij.2) (h2 : ij.2 < xs.length) :
    (casPair ij xs).Perm xs := by
  have h1' : ij.1 < xs.length := by omega
  rcases le_total (sval (xs.getD ij.1 0#W)) (sval (xs.getD ij.2 0#W)) with h | h
  · have e1 : smin (xs.getD ij.1 0#W) (xs.getD ij.2 0#W) = xs.getD ij.1 0#W := if_pos h
    have e2 : smax (xs.getD ij.1 0#W) (xs.getD ij.2 0#W) = xs.getD ij.2 0#W :=
      sval_injective (by rw [sval_smax]; omega)
    have : casPair ij xs = xs := by
      simp only [casPair, e1, e2]
      simp [h1', h2]
    rw [this]
  · have e1 : smin (xs.getD ij.1 0#W) (xs.getD ij.2 0#W) = xs.getD ij.2 0#W :=
      sval_injective (by rw [sval_smin]; omega)
    have e2 : smax (xs.getD ij.1 0#W) (xs.getD ij.2 0#W) = xs.getD ij.1 0#W := if_pos h
    simp only [casPair, e1, e2]
    simpa [h1', h2] using List.set_set_perm h1' h2

theorem casAll_perm (ps : List (Nat × Nat)) (xs : List (BitVec W))
    (h : ∀ ij ∈ ps, ij.1 < ij.2 ∧ ij.2 < xs.length) : (casAll ps xs).Perm xs := by
  induction ps generalizing xs with
  | nil => rfl
  | cons p ps ih =>
    have hp := h p (by simp)
    exact (ih (casPair p xs) (fun ij hij => by simpa using h ij (by simp [hij]))).trans
      (casPair_perm p xs hp.1 hp.2)

/-! ## The 0-1 principle -/

/-- Is a value at least `t`? -/
def atLeast (t : Int) (b : BitVec W) : Bool := decide (t ≤ sval b)

/-- A compare-and-swap on truth values. -/
def boolCas (ij : Nat × Nat) (xs : List Bool) : List Bool :=
  let a := xs.getD ij.1 false
  let b := xs.getD ij.2 false
  (xs.set ij.1 (a && b)).set ij.2 (a || b)

/-- Truth values in order: no true before a false. -/
abbrev BoolSorted (xs : List Bool) : Prop := xs.Pairwise fun a b => a = true → b = true

theorem atLeast_smin (t : Int) (a b : BitVec W) : atLeast t (smin a b) = (atLeast t a && atLeast t b) := by
  simp only [atLeast, sval_smin]
  rw [Bool.eq_iff_iff]
  simp

theorem atLeast_smax (t : Int) (a b : BitVec W) : atLeast t (smax a b) = (atLeast t a || atLeast t b) := by
  simp only [atLeast, sval_smax]
  rw [Bool.eq_iff_iff]
  simp

theorem map_casPair (t : Int) (ij : Nat × Nat) (xs : List (BitVec W)) (h1 : ij.1 < xs.length)
    (h2 : ij.2 < xs.length) : (casPair ij xs).map (atLeast t) = boolCas ij (xs.map (atLeast t)) := by
  simp [casPair, boolCas, List.map_set, atLeast_smin, atLeast_smax, h1, h2]

theorem map_casAll (t : Int) (ps : List (Nat × Nat)) (xs : List (BitVec W))
    (h : ∀ ij ∈ ps, ij.1 < xs.length ∧ ij.2 < xs.length) :
    (casAll ps xs).map (atLeast t) = ps.foldl (fun ys ij => boolCas ij ys) (xs.map (atLeast t)) := by
  induction ps generalizing xs with
  | nil => rfl
  | cons p ps ih =>
    have hp := h p (by simp)
    show (casAll ps (casPair p xs)).map (atLeast t) = _
    rw [ih _ (fun ij hij => by simpa using h ij (by simp [hij])), map_casPair t p xs hp.1 hp.2]
    rfl

theorem nonDescending_of_atLeast (ys : List (BitVec W)) (h : ∀ t, BoolSorted (ys.map (atLeast t))) :
    NonDescending ys := by
  unfold NonDescending
  rw [List.pairwise_iff_getElem]
  intro i j hi hj hij
  have hp := h (sval ys[i])
  rw [BoolSorted, List.pairwise_iff_getElem] at hp
  have hij' := hp i j (by simpa using hi) (by simpa using hj) hij
  rw [List.getElem_map, List.getElem_map] at hij'
  simpa [atLeast] using hij'

/-- A pair sequence that sorts every list of `n` truth values sorts every list of `n` elements. -/
theorem casAll_nonDescending {n : Nat} (ps : List (Nat × Nat)) (hps : ∀ ij ∈ ps, ij.1 < ij.2 ∧ ij.2 < n)
    (hb : ∀ v : List Bool, v.length = n → BoolSorted (ps.foldl (fun ys ij => boolCas ij ys) v))
    (xs : List (BitVec W)) (hn : xs.length = n) : NonDescending (casAll ps xs) := by
  apply nonDescending_of_atLeast
  intro t
  rw [map_casAll t ps xs (fun ij h => by have := hps ij h; omega)]
  exact hb _ (by simpa using hn)

end Sys2Proof.Machine
end

