-- ==== Sys2Proof/Laws/PerInstr.lean ====
section
/-! SUPPORT. Per operation: its encoding has its row's match under its row's mask (R50, `opcode_table.json`). -/

namespace Sys2Proof.Laws.TableRow

/-- The encoding of an operation lies in its row of the table. -/
def Statement (i : Instr) : Prop := encode i &&& tableMask i = tableMatch i

/-- A control word under the mask that keeps `rst` and `in_valid`. -/
theorem ctrlWord_and_fieldMask (r v : Bool) (d : DataWord) :
    ctrlWord r v d &&& 0x300000000000000000000000000000000#130 = ctrlWord r v 0#128 := by
  have hd : d.setWidth 130 &&& 0x300000000000000000000000000000000#130 = 0#130 := by
    apply BitVec.eq_of_toNat_eq
    have hlt := d.isLt
    rw [BitVec.toNat_and, BitVec.toNat_setWidth_of_le (by omega)]
    show d.toNat &&& (3 <<< 128) = 0
    apply Nat.eq_of_testBit_eq
    intro k
    rw [Nat.testBit_and, Nat.testBit_shiftLeft, Nat.zero_testBit]
    by_cases hk : 128 ≤ k
    · rw [Nat.testBit_lt_two_pow (lt_of_lt_of_le hlt (Nat.pow_le_pow_right (by omega) hk))]
      simp
    · simp [hk]
  cases r <;> cases v <;> simp only [ctrlWord, BitVec.and_or_distrib_right, hd] <;> decide

/-- A control word under the mask that keeps `rst`. -/
theorem ctrlWord_and_rstMask (r v : Bool) (d : DataWord) :
    ctrlWord r v d &&& 0x200000000000000000000000000000000#130 = ctrlWord r false 0#128 := by
  rw [show (0x200000000000000000000000000000000#130 : CtrlWord) =
    0x300000000000000000000000000000000#130 &&& 0x200000000000000000000000000000000#130 by decide,
    ← BitVec.and_assoc, ctrlWord_and_fieldMask]
  cases r <;> cases v <;> decide

theorem sort4 (e0 e1 e2 e3 : BitVec 32) : Statement (.sort4 e0 e1 e2 e3) :=
  (ctrlWord_and_fieldMask _ _ _).trans (by simp only [tableMatch]; decide)

theorem nop4 (d : DataWord) : Statement (.nop4 d) := (ctrlWord_and_fieldMask _ _ _).trans (by simp only [tableMatch]; decide)

theorem rst4 (v : Bool) (d : DataWord) : Statement (.rst4 v d) :=
  (ctrlWord_and_rstMask _ _ _).trans (by simp only [tableMatch]; decide)

theorem sort6b (e0 e1 e2 e3 e4 e5 : BitVec 8) (pad : BitVec 80) : Statement (.sort6b e0 e1 e2 e3 e4 e5 pad) :=
  (ctrlWord_and_fieldMask _ _ _).trans (by simp only [tableMatch]; decide)

theorem nop6 (d : DataWord) : Statement (.nop6 d) := (ctrlWord_and_fieldMask _ _ _).trans (by simp only [tableMatch]; decide)

theorem rst6 (v : Bool) (d : DataWord) : Statement (.rst6 v d) :=
  (ctrlWord_and_rstMask _ _ _).trans (by simp only [tableMatch]; decide)

end Sys2Proof.Laws.TableRow
end

