-- ==== Sys2Proof/Laws/Rounds.lean ====
section
/-! SUPPORT. What one lane of one round is, once for any table (R65, R67, R74, R88, R90, R99). -/

namespace Sys2Proof.Machine

/-- The index of a lane is `C + K` where its partner is greater, and `C` where it is not (R65, R74, R88, R99). -/
theorem indexAt_cases {W : Nat} (t : RoundTable W) (x : DataWord) (i : Nat) :
    indexAt t x i =
      if sval (lane W x i) < sval (lane W x (t.p i)) then t.c i + t.k i else t.c i := by
  unfold indexAt maskAt
  split
  · rename_i h
    rw [laneMask_of_gt h]
    simp
  · rename_i h
    rw [laneMask_of_not_gt h]
    simp

/-- Where a lane's two possible indices name the lower lane of its pair (partner greater) and the higher one
(partner not greater), the lane that the index selects holds the compare-and-swap's value (R67, R90). -/
theorem selected_eq_casLane {W : Nat} (idxBits : Nat) (t : RoundTable W) (x : DataWord) (i : Nat)
    (hlo : t.p i ≠ i → selectedLane idxBits (t.c i + t.k i) = min i (t.p i))
    (hhi : selectedLane idxBits (t.c i) = max i (t.p i)) :
    lane W x (selectedLane idxBits (indexAt t x i)) = casLane t x i := by
  rw [indexAt_cases]
  unfold casLane
  by_cases hp : t.p i = i
  · simp [hp, hhi]
  · by_cases hg : sval (lane W x i) < sval (lane W x (t.p i))
    · rw [if_pos hg, hlo hp]
      by_cases hlt : i < t.p i
      · simp [hp, hlt, hlt.le, smin, hg.le]
      · have h2 : t.p i ≤ i := by omega
        simp [hp, hlt, h2, smax, not_le.2 hg]
    · rw [if_neg hg, hhi]
      have hle : sval (lane W x (t.p i)) ≤ sval (lane W x i) := by omega
      by_cases hlt : i < t.p i
      · simp only [hp, hlt, hlt.le, max_eq_right, if_true, if_false, smin]
        split
        · rename_i h
          exact sval_injective (le_antisymm hle h)
        · rfl
      · have h2 : t.p i ≤ i := by omega
        simp [hp, hlt, h2, smax, hle]

end Sys2Proof.Machine
end

