-- ==== Sys2Proof/Laws/State.lean ====
section
/-! SUPPORT. One lemma per field per update of State and of the two blocks' registers. -/

namespace Sys2Proof.Machine

section setB4Fields
variable (s : State) (x : Block4)
@[simp] theorem State.setB4_b4 : (s.setB4 x).b4 = x := rfl
@[simp] theorem State.setB4_b6 : (s.setB4 x).b6 = s.b6 := rfl
@[simp] theorem State.setB4_events : (s.setB4 x).events = s.events := rfl
@[simp] theorem State.setB4_free4 : (s.setB4 x).free4 = s.free4 := rfl
@[simp] theorem State.setB4_free6 : (s.setB4 x).free6 = s.free6 := rfl
@[simp] theorem State.setB4_booted4 : (s.setB4 x).booted4 = s.booted4 := rfl
@[simp] theorem State.setB4_booted6 : (s.setB4 x).booted6 = s.booted6 := rfl
end setB4Fields

section setB6Fields
variable (s : State) (x : Block6)
@[simp] theorem State.setB6_b4 : (s.setB6 x).b4 = s.b4 := rfl
@[simp] theorem State.setB6_b6 : (s.setB6 x).b6 = x := rfl
@[simp] theorem State.setB6_events : (s.setB6 x).events = s.events := rfl
@[simp] theorem State.setB6_free4 : (s.setB6 x).free4 = s.free4 := rfl
@[simp] theorem State.setB6_free6 : (s.setB6 x).free6 = s.free6 := rfl
@[simp] theorem State.setB6_booted4 : (s.setB6 x).booted4 = s.booted4 := rfl
@[simp] theorem State.setB6_booted6 : (s.setB6 x).booted6 = s.booted6 := rfl
end setB6Fields

section setEventsFields
variable (s : State) (es : List Event)
@[simp] theorem State.setEvents_b4 : (s.setEvents es).b4 = s.b4 := rfl
@[simp] theorem State.setEvents_b6 : (s.setEvents es).b6 = s.b6 := rfl
@[simp] theorem State.setEvents_events : (s.setEvents es).events = es := rfl
@[simp] theorem State.setEvents_free4 : (s.setEvents es).free4 = s.free4 := rfl
@[simp] theorem State.setEvents_free6 : (s.setEvents es).free6 = s.free6 := rfl
@[simp] theorem State.setEvents_booted4 : (s.setEvents es).booted4 = s.booted4 := rfl
@[simp] theorem State.setEvents_booted6 : (s.setEvents es).booted6 = s.booted6 := rfl
end setEventsFields

section driveFields
variable (s : State) (b : Block) (cws : List CtrlWord)
@[simp] theorem State.drive_b4 : (s.drive b cws).b4 = s.b4 := rfl
@[simp] theorem State.drive_b6 : (s.drive b cws).b6 = s.b6 := rfl
@[simp] theorem State.drive_events : (s.drive b cws).events = cws.map (edgeOf b) := rfl
@[simp] theorem State.drive_free4 : (s.drive b cws).free4 = s.free4 := rfl
@[simp] theorem State.drive_free6 : (s.drive b cws).free6 = s.free6 := rfl
@[simp] theorem State.drive_booted4 : (s.drive b cws).booted4 = s.booted4 := rfl
@[simp] theorem State.drive_booted6 : (s.drive b cws).booted6 = s.booted6 := rfl
end driveFields

section setFreeFields
variable (s : State) (b : Block) (n : Nat)
@[simp] theorem State.setFree_b4 : (s.setFree b n).b4 = s.b4 := by cases b <;> rfl
@[simp] theorem State.setFree_b6 : (s.setFree b n).b6 = s.b6 := by cases b <;> rfl
@[simp] theorem State.setFree_events : (s.setFree b n).events = s.events := by cases b <;> rfl
@[simp] theorem State.setFree_booted4 : (s.setFree b n).booted4 = s.booted4 := by cases b <;> rfl
@[simp] theorem State.setFree_booted6 : (s.setFree b n).booted6 = s.booted6 := by cases b <;> rfl
@[simp] theorem State.setFree_self : s.setFree b (s.free b) = s := by cases b <;> rfl
@[simp] theorem State.free_setFree : (s.setFree b n).free b = n := by cases b <;> rfl
end setFreeFields

section setBootedFields
variable (s : State) (b : Block) (v : Bool)
@[simp] theorem State.setBooted_b4 : (s.setBooted b v).b4 = s.b4 := by cases b <;> rfl
@[simp] theorem State.setBooted_b6 : (s.setBooted b v).b6 = s.b6 := by cases b <;> rfl
@[simp] theorem State.setBooted_events : (s.setBooted b v).events = s.events := by cases b <;> rfl
@[simp] theorem State.setBooted_free4 : (s.setBooted b v).free4 = s.free4 := by cases b <;> rfl
@[simp] theorem State.setBooted_free6 : (s.setBooted b v).free6 = s.free6 := by cases b <;> rfl
@[simp] theorem State.setBooted4_booted4 : (s.setBooted .sn4w32b v).booted4 = v := rfl
@[simp] theorem State.setBooted4_booted6 : (s.setBooted .sn4w32b v).booted6 = s.booted6 := rfl
@[simp] theorem State.setBooted6_booted4 : (s.setBooted .sn6w8b v).booted4 = s.booted4 := rfl
@[simp] theorem State.setBooted6_booted6 : (s.setBooted .sn6w8b v).booted6 = v := rfl
@[simp] theorem State.booted_setBooted_self : (s.setBooted b v).booted b = v := by cases b <;> rfl
@[simp] theorem State.free_setBooted (c : Block) : (s.setBooted b v).free c = s.free c := by
  cases b <;> cases c <;> rfl
end setBootedFields

/-- Marking one block says nothing of the other (R115). -/
theorem State.booted_setBooted (s : State) (b c : Block) (v : Bool) :
    (s.setBooted b v).booted c = if c = b then v else s.booted c := by cases b <;> cases c <;> rfl
@[simp] theorem State.booted_setB4 (s : State) (x : Block4) (b : Block) : (s.setB4 x).booted b = s.booted b := by
  cases b <;> rfl
@[simp] theorem State.booted_setB6 (s : State) (x : Block6) (b : Block) : (s.setB6 x).booted b = s.booted b := by
  cases b <;> rfl
@[simp] theorem State.booted_setEvents (s : State) (es : List Event) (b : Block) :
    (s.setEvents es).booted b = s.booted b := by cases b <;> rfl
@[simp] theorem State.booted_setFree (s : State) (c : Block) (n : Nat) (b : Block) :
    (s.setFree c n).booted b = s.booted b := by cases b <;> cases c <;> rfl

@[simp] theorem State.free_setB4 (s : State) (x : Block4) (b : Block) : (s.setB4 x).free b = s.free b := by
  cases b <;> rfl
@[simp] theorem State.free_setB6 (s : State) (x : Block6) (b : Block) : (s.setB6 x).free b = s.free b := by
  cases b <;> rfl
@[simp] theorem State.free_setEvents (s : State) (es : List Event) (b : Block) :
    (s.setEvents es).free b = s.free b := by cases b <;> rfl
@[simp] theorem State.setEvents_setEvents (s : State) (es es' : List Event) :
    (s.setEvents es).setEvents es' = s.setEvents es' := rfl
@[simp] theorem State.setEvents_self (s : State) : s.setEvents s.events = s := rfl

section Block4advanceFields
variable (x : Block4)
@[simp] theorem Block4.advance_v1 : (x.advance).v1 = x.v1 := rfl
@[simp] theorem Block4.advance_v2 : (x.advance).v2 = x.v1 := rfl
@[simp] theorem Block4.advance_v3 : (x.advance).v3 = x.v2 := rfl
@[simp] theorem Block4.advance_s1 : (x.advance).s1 = x.s1 := rfl
@[simp] theorem Block4.advance_s2 : (x.advance).s2 = if x.v1 then round4 .r2 x.s1 else x.s2 := rfl
@[simp] theorem Block4.advance_s3 : (x.advance).s3 = if x.v2 then round4 .r3 x.s2 else x.s3 := rfl
end Block4advanceFields

section Block4enterFields
variable (d : DataWord) (x : Block4)
@[simp] theorem Block4.enter_v1 : (x.enter d).v1 = true := rfl
@[simp] theorem Block4.enter_v2 : (x.enter d).v2 = x.v1 := rfl
@[simp] theorem Block4.enter_v3 : (x.enter d).v3 = x.v2 := rfl
@[simp] theorem Block4.enter_s1 : (x.enter d).s1 = round4 .r1 d := rfl
@[simp] theorem Block4.enter_s2 : (x.enter d).s2 = if x.v1 then round4 .r2 x.s1 else x.s2 := rfl
@[simp] theorem Block4.enter_s3 : (x.enter d).s3 = if x.v2 then round4 .r3 x.s2 else x.s3 := rfl
end Block4enterFields

section Block4bubbleFields
variable (x : Block4)
@[simp] theorem Block4.bubble_v1 : (x.bubble).v1 = false := rfl
@[simp] theorem Block4.bubble_v2 : (x.bubble).v2 = x.v1 := rfl
@[simp] theorem Block4.bubble_v3 : (x.bubble).v3 = x.v2 := rfl
@[simp] theorem Block4.bubble_s1 : (x.bubble).s1 = x.s1 := rfl
@[simp] theorem Block4.bubble_s2 : (x.bubble).s2 = if x.v1 then round4 .r2 x.s1 else x.s2 := rfl
@[simp] theorem Block4.bubble_s3 : (x.bubble).s3 = if x.v2 then round4 .r3 x.s2 else x.s3 := rfl
end Block4bubbleFields

section Block4clearFields
variable (x : Block4)
@[simp] theorem Block4.clear_v1 : (x.clear).v1 = false := rfl
@[simp] theorem Block4.clear_v2 : (x.clear).v2 = false := rfl
@[simp] theorem Block4.clear_v3 : (x.clear).v3 = false := rfl
@[simp] theorem Block4.clear_s1 : (x.clear).s1 = x.s1 := rfl
@[simp] theorem Block4.clear_s2 : (x.clear).s2 = x.s2 := rfl
@[simp] theorem Block4.clear_s3 : (x.clear).s3 = x.s3 := rfl
end Block4clearFields

section Block6advanceFields
variable (x : Block6)
@[simp] theorem Block6.advance_qv1 : (x.advance).qv1 = x.qv1 := rfl
@[simp] theorem Block6.advance_qv2 : (x.advance).qv2 = x.qv1 := rfl
@[simp] theorem Block6.advance_qv3 : (x.advance).qv3 = x.qv2 := rfl
@[simp] theorem Block6.advance_qv4 : (x.advance).qv4 = x.qv3 := rfl
@[simp] theorem Block6.advance_qv5 : (x.advance).qv5 = x.qv4 := rfl
@[simp] theorem Block6.advance_q1 : (x.advance).q1 = x.q1 := rfl
@[simp] theorem Block6.advance_q2 : (x.advance).q2 = if x.qv1 then round6 .r2 x.q1 else x.q2 := rfl
@[simp] theorem Block6.advance_q3 : (x.advance).q3 = if x.qv2 then round6 .r3 x.q2 else x.q3 := rfl
@[simp] theorem Block6.advance_q4 : (x.advance).q4 = if x.qv3 then round6 .r4 x.q3 else x.q4 := rfl
@[simp] theorem Block6.advance_q5 : (x.advance).q5 = if x.qv4 then round6 .r5 x.q4 else x.q5 := rfl
end Block6advanceFields

section Block6enterFields
variable (d : DataWord) (x : Block6)
@[simp] theorem Block6.enter_qv1 : (x.enter d).qv1 = true := rfl
@[simp] theorem Block6.enter_qv2 : (x.enter d).qv2 = x.qv1 := rfl
@[simp] theorem Block6.enter_qv3 : (x.enter d).qv3 = x.qv2 := rfl
@[simp] theorem Block6.enter_qv4 : (x.enter d).qv4 = x.qv3 := rfl
@[simp] theorem Block6.enter_qv5 : (x.enter d).qv5 = x.qv4 := rfl
@[simp] theorem Block6.enter_q1 : (x.enter d).q1 = round6 .r1 d := rfl
@[simp] theorem Block6.enter_q2 : (x.enter d).q2 = if x.qv1 then round6 .r2 x.q1 else x.q2 := rfl
@[simp] theorem Block6.enter_q3 : (x.enter d).q3 = if x.qv2 then round6 .r3 x.q2 else x.q3 := rfl
@[simp] theorem Block6.enter_q4 : (x.enter d).q4 = if x.qv3 then round6 .r4 x.q3 else x.q4 := rfl
@[simp] theorem Block6.enter_q5 : (x.enter d).q5 = if x.qv4 then round6 .r5 x.q4 else x.q5 := rfl
end Block6enterFields

section Block6bubbleFields
variable (x : Block6)
@[simp] theorem Block6.bubble_qv1 : (x.bubble).qv1 = false := rfl
@[simp] theorem Block6.bubble_qv2 : (x.bubble).qv2 = x.qv1 := rfl
@[simp] theorem Block6.bubble_qv3 : (x.bubble).qv3 = x.qv2 := rfl
@[simp] theorem Block6.bubble_qv4 : (x.bubble).qv4 = x.qv3 := rfl
@[simp] theorem Block6.bubble_qv5 : (x.bubble).qv5 = x.qv4 := rfl
@[simp] theorem Block6.bubble_q1 : (x.bubble).q1 = x.q1 := rfl
@[simp] theorem Block6.bubble_q2 : (x.bubble).q2 = if x.qv1 then round6 .r2 x.q1 else x.q2 := rfl
@[simp] theorem Block6.bubble_q3 : (x.bubble).q3 = if x.qv2 then round6 .r3 x.q2 else x.q3 := rfl
@[simp] theorem Block6.bubble_q4 : (x.bubble).q4 = if x.qv3 then round6 .r4 x.q3 else x.q4 := rfl
@[simp] theorem Block6.bubble_q5 : (x.bubble).q5 = if x.qv4 then round6 .r5 x.q4 else x.q5 := rfl
end Block6bubbleFields

section Block6clearFields
variable (x : Block6)
@[simp] theorem Block6.clear_qv1 : (x.clear).qv1 = false := rfl
@[simp] theorem Block6.clear_qv2 : (x.clear).qv2 = false := rfl
@[simp] theorem Block6.clear_qv3 : (x.clear).qv3 = false := rfl
@[simp] theorem Block6.clear_qv4 : (x.clear).qv4 = false := rfl
@[simp] theorem Block6.clear_qv5 : (x.clear).qv5 = false := rfl
@[simp] theorem Block6.clear_q1 : (x.clear).q1 = x.q1 := rfl
@[simp] theorem Block6.clear_q2 : (x.clear).q2 = x.q2 := rfl
@[simp] theorem Block6.clear_q3 : (x.clear).q3 = x.q3 := rfl
@[simp] theorem Block6.clear_q4 : (x.clear).q4 = x.q4 := rfl
@[simp] theorem Block6.clear_q5 : (x.clear).q5 = x.q5 := rfl
end Block6clearFields

end Sys2Proof.Machine
end

