-- ==== Sys2Proof/Laws/Step.lean ====
section
/-! SUPPORT. What one operation, one step and one driven run can do, said once (R46, R50, R103, R104, R117). -/

namespace Sys2Proof.Machine

/-- What a control word does to the state of its block, by its fields (R69 to R73, R92 to R98). -/
def edgeEffect (b : Block) (cw : CtrlWord) (s : State) : State :=
  match b with
  | .sn4w32b => if CtrlWord.rst cw then (s.setB4 s.b4.clear).setBooted .sn4w32b true
      else s.setB4 (if CtrlWord.inValid cw then s.b4.enter (CtrlWord.inData cw) else s.b4.bubble)
  | .sn6w8b => if CtrlWord.rst cw then (s.setB6 s.b6.clear).setBooted .sn6w8b true
      else s.setB6 (if CtrlWord.inValid cw then s.b6.enter (CtrlWord.inData cw) else s.b6.bubble)

@[simp] theorem edgeEffect_events (b : Block) (cw : CtrlWord) (s : State) :
    (edgeEffect b cw s).events = s.events := by
  cases b <;> simp only [edgeEffect] <;> split <;> rfl

@[simp] theorem edgeEffect_free (b c : Block) (cw : CtrlWord) (s : State) :
    (edgeEffect b cw s).free c = s.free c := by
  cases b <;> simp only [edgeEffect] <;> split <;> simp

/-- An edge boots its block if it is a reset edge, and changes no other mark (R120). -/
theorem edgeEffect_booted (b c : Block) (cw : CtrlWord) (s : State) :
    (edgeEffect b cw s).booted c = (s.booted c || (decide (c = b) && CtrlWord.rst cw)) := by
  cases b <;> cases c <;> cases hr : CtrlWord.rst cw <;> simp [edgeEffect, hr, State.booted]

theorem edgeEffect_setEvents (b : Block) (cw : CtrlWord) (s : State) (es : List Event) :
    edgeEffect b cw (s.setEvents es) = (edgeEffect b cw s).setEvents es := by
  cases b <;> simp only [edgeEffect] <;> split <;> rfl

theorem edgeEffect_setFree (b c : Block) (cw : CtrlWord) (s : State) (n : Nat) :
    edgeEffect b cw (s.setFree c n) = (edgeEffect b cw s).setFree c n := by
  cases b <;> cases c <;> simp only [edgeEffect] <;> split <;> rfl

/-- The effects on the two blocks commute (R115). -/
theorem edgeEffect_comm {b c : Block} (h : b ≠ c) (v w : CtrlWord) (s : State) :
    edgeEffect b v (edgeEffect c w s) = edgeEffect c w (edgeEffect b v s) := by
  cases b <;> cases c <;> first
    | exact absurd rfl h
    | (cases hv : CtrlWord.rst v <;> cases hw : CtrlWord.rst w <;> simp only [edgeEffect, hv, hw] <;> rfl)

/-- Reset words have one effect (R71, R94). -/
theorem edgeEffect_of_rst (b : Block) (cw cw' : CtrlWord) (s : State) (h : CtrlWord.rst cw = true)
    (h' : CtrlWord.rst cw' = true) : edgeEffect b cw s = edgeEffect b cw' s := by
  cases b <;> simp [edgeEffect, h, h']

/-- An operation answers the effect of its control word, from every state. -/
theorem exec_decode_eq (b : Block) (cw : CtrlWord) (s : State) :
    exec (decode b cw) s = .next (edgeEffect b cw s) := by
  cases b <;> cases hr : CtrlWord.rst cw <;> cases hv : CtrlWord.inValid cw <;>
    simp [decode, hr, hv, edgeEffect, exec, decodeSort4, decodeSort6b, execSort4, execNop4, execRst4,
      execSort6b, execNop6, execRst6, beat4_lanes, beat6_lanes]

/-- A step at an edge whose operation reads no undefined level. -/
theorem step_of_edge (b : Block) (p : Pins) (es : List Event) (s : State) (h : s.events = .edge b p :: es)
    (hd : InputsDefined b p) :
    step s = .next (edgeEffect b (p.word (Config.freeWord b (s.free b)))
      ((s.setEvents es).setFree b (if p.defined then s.free b else s.free b + 1))) := by
  unfold InputsDefined at hd
  simp [step, fetch, h, samplePins, hd, exec_decode_eq]

/-- All that a step which answers a next state can have done. -/
theorem step_cases {s t : State} (h : step s = .next t) :
    (s.events = [] ∧ t = s) ∨
    (∃ b es, s.events = .powerOn b :: es ∧ t = powerOn b (s.setEvents es)) ∨
    (∃ b p es, s.events = .edge b p :: es ∧ InputsDefined b p ∧
      t = edgeEffect b (p.word (Config.freeWord b (s.free b)))
        ((s.setEvents es).setFree b (if p.defined then s.free b else s.free b + 1))) := by
  cases hev : s.events with
  | nil =>
    simp only [step, fetch, hev, Host.Outcome.next.injEq] at h
    exact .inl ⟨rfl, h.symm⟩
  | cons e es =>
    cases e with
    | powerOn b =>
      simp only [step, fetch, hev, Host.Outcome.next.injEq] at h
      exact .inr (.inl ⟨b, es, rfl, h.symm⟩)
    | edge b p =>
      cases hq : p.refusal b with
      | none =>
        rw [step_of_edge b p es s hev hq, Host.Outcome.next.injEq] at h
        exact .inr (.inr ⟨b, p, es, rfl, hq, h.symm⟩)
      | some r => simp [step, fetch, hev, samplePins, hq] at h

/-- Which undefined bits of `in_data` a beat's operation reads (R104). -/
theorem undef_and_readBits (b : Block) (u : DataWord) :
    u &&& readBits b = 0#128 ↔ ∀ k < (params b).n * (params b).w, u.getLsbD k = false := by
  have hrb : ∀ k < 128, (readBits b).getLsbD k = decide (k < (params b).n * (params b).w) := by
    intro k hk
    cases b
    · simp only [readBits, params, BitVec.getLsbD_allOnes]
      simp [hk]
    · simp only [readBits, params]
      interval_cases k <;> decide
  have hle : (params b).n * (params b).w ≤ 128 := by cases b <;> decide
  constructor
  · intro h k hk
    have hb := congrArg (fun v => v.getLsbD k) h
    simp only [BitVec.getLsbD_and, hrb k (by omega), hk] at hb
    simpa using hb
  · intro h
    apply BitVec.eq_of_getLsbD_eq
    intro k hk
    rw [BitVec.getLsbD_and, hrb k hk]
    by_cases h2 : k < (params b).n * (params b).w
    · simp [h k h2]
    · simp [h2]

theorem runsTo_zero {s t : State} : RunsTo 0 s t ↔ s = t := by
  unfold RunsTo
  simp only [Host.Core.run]
  exact ⟨fun h => by cases h; rfl, fun h => by rw [h]⟩

theorem runsTo_succ {n : Nat} {s t u : State} (h : step s = .next t) : RunsTo (n + 1) s u ↔ RunsTo n t u := by
  unfold RunsTo
  simp only [Host.Core.run]
  rw [show Sys2Proof.core.step s = .next t from h]

/-- The effects of control words one after the other. -/
def edgeEffects (b : Block) (cws : List CtrlWord) (s : State) : State :=
  cws.foldl (fun t cw => edgeEffect b cw t) s

/-- A run boots its block if some word of it is a reset (R120). -/
theorem edgeEffects_booted (b : Block) (cws : List CtrlWord) (s : State) :
    (edgeEffects b cws s).booted b = (s.booted b || cws.any CtrlWord.rst) := by
  induction cws generalizing s with
  | nil => simp [edgeEffects]
  | cons cw cws ih =>
    show (edgeEffects b cws (edgeEffect b cw s)).booted b = _
    rw [ih, edgeEffect_booted]
    simp [Bool.or_assoc]

/-- A driven run has its words' effects in order, and ends with nothing queued (R46). -/
theorem runsTo_drive (b : Block) (cws : List CtrlWord) (s : State) :
    RunsTo cws.length (s.drive b cws) ((edgeEffects b cws s).setEvents []) := by
  induction cws generalizing s with
  | nil => exact runsTo_zero.2 rfl
  | cons cw cws ih =>
    have hstep : step (s.drive b (cw :: cws)) = .next ((edgeEffect b cw s).drive b cws) := by
      rw [step, fetch_edgeOf b cw (cws.map (edgeOf b)) _ rfl]
      show exec (decode b cw) _ = _
      rw [exec_decode_eq]
      simp only [State.drive, edgeEffect_setEvents, State.setEvents_setEvents]
    exact (runsTo_succ hstep).2 (ih (edgeEffect b cw s))

end Sys2Proof.Machine
end

