-- ==== Sys2Proof/Tests/Slice0.lean ====
section
/-! SUPPORT. The model's own tests: expected values are the spec's (`95_test_vectors.md`, R53, R54), and for every
statement with hypotheses a state and operands that meet them. -/

open Sys2Proof Sys2Proof.Machine

namespace Sys2Proof.Tests

/-! ## Helpers -/

/-- A view of the next state, if there is one. -/
def nextView {α : Type} (f : State → α) : Host.Outcome State Fault Refusal → Option α
  | .next t => some (f t)
  | .fault _ => none
  | .refused _ => none

/-- The refusal, if the step is refused. -/
def refusalOf : Host.Outcome State Fault Refusal → Option Refusal
  | .next _ => none
  | .fault _ => none
  | .refused r => some r

/-- 4w32b with the given valid bits and A = [3,4,1,2], B = [1,3,2,4], C = [9,9,9,9]. -/
def s4 (v1 v2 v3 : Bool) : State := State.reset.setB4
  { v1 := v1, v2 := v2, v3 := v3, s1 := beat4 3#32 4#32 1#32 2#32, s2 := beat4 1#32 3#32 2#32 4#32,
    s3 := beat4 9#32 9#32 9#32 9#32 }

/-- 6w8b with the given valid bits and A = [5,6,3,4,1,2], B = [3,1,5,2,6,4], C = [1,3,2,5,4,6], D = [1,2,4,3,5,6],
E = [9,9,9,9,9,9], padding 0. -/
def s6 (v1 v2 v3 v4 v5 : Bool) : State := State.reset.setB6
  { qv1 := v1, qv2 := v2, qv3 := v3, qv4 := v4, qv5 := v5,
    q1 := beat6 5#8 6#8 3#8 4#8 1#8 2#8 0#80, q2 := beat6 3#8 1#8 5#8 2#8 6#8 4#8 0#80,
    q3 := beat6 1#8 3#8 2#8 5#8 4#8 6#8 0#80, q4 := beat6 1#8 2#8 4#8 3#8 5#8 6#8 0#80,
    q5 := beat6 9#8 9#8 9#8 9#8 9#8 9#8 0#80 }

/-- The active lanes of the three stages. -/
def words4 (s : State) : List (List Nat) := (stageWords .sn4w32b s).map fun x => (lanes 32 4 x).map BitVec.toNat

/-- The active lanes of the five stages. -/
def words6 (s : State) : List (List Nat) := (stageWords .sn6w8b s).map fun x => (lanes 8 6 x).map BitVec.toNat

/-- The wires of a beat of 1s with some bits of `in_data` undefined. -/
def beatPins (undef : DataWord) : Pins :=
  { rst := .zero, inValid := .one, inData := BitVec.allOnes 128, inDataUndef := undef }

/-- A state with one event queued. -/
def queued (e : Event) : State := State.reset.setEvents [e]

/-! ## Well-formedness: what each check refuses -/

theorem test_wf_refuses_other_block :
    Instr.wf .sn6w8b (.sort4 0#32 0#32 0#32 0#32) = false ∧ Instr.wf .sn6w8b (.nop4 0#128) = false ∧
    Instr.wf .sn6w8b (.rst4 true 0#128) = false ∧
    Instr.wf .sn4w32b (.sort6b 0#8 0#8 0#8 0#8 0#8 0#8 0#80) = false ∧ Instr.wf .sn4w32b (.nop6 0#128) = false ∧
    Instr.wf .sn4w32b (.rst6 true 0#128) = false := by decide

theorem test_literal_wf_refuses_out_of_range :
    Literal.wf 8 (.decimal 128) = false ∧ Literal.wf 8 (.decimal (-129)) = false ∧
    Literal.wf 8 (.decimal 127) = true ∧ Literal.wf 8 (.decimal (-128)) = true ∧
    Literal.wf 32 (.decimal 2147483648) = false ∧ Literal.wf 32 (.decimal (-2147483648)) = true ∧
    Literal.wf 32 (.hex 7 0) = false ∧ Literal.wf 32 (.hex 8 0xFFFFFFFF) = true ∧ Literal.wf 8 (.hex 2 256) = false := by
  decide

theorem test_padWf_refuses_decimal_and_short :
    padWf (some (.decimal 0)) = false ∧ padWf (some (.hex 19 0)) = false ∧ padWf (some (.hex 20 (2 ^ 80))) = false ∧
    padWf (some (.hex 20 (2 ^ 80 - 1))) = true := by decide

theorem test_line_wf_refuses_other_block :
    Line.wf .sn6w8b (.sort4 (.decimal 0) (.decimal 0) (.decimal 0) (.decimal 0)) = false ∧
    Line.wf .sn4w32b .nop6 = false ∧ Line.wf .sn6w8b .rst4 = false ∧ Line.wf .sn4w32b .rst6 = false ∧
    Line.wf .sn6w8b .nop4 = false ∧
    Line.wf .sn4w32b (.sort6b (.decimal 0) (.decimal 0) (.decimal 0) (.decimal 0) (.decimal 0) (.decimal 0) none) = false ∧
    Line.wf .sn4w32b (.sort4 (.decimal 0) (.decimal 0) (.decimal 0) (.decimal 2147483648)) = false ∧
    Trace.wf { block := .sn4w32b, lines := [.boot, .nop6] } = false ∧
    Trace.wf { block := .sn4w32b, lines := [.boot, .wait 2, .nop4] } = true := by decide

theorem test_memory_wf_refuses_unsorted :
    ¬ Memory.wf [(1, 0#8), (0, 0#8)] ∧ ¬ Memory.wf [(1, 0#8), (1, 0#8)] ∧ Memory.wf [(0, 0#8), (1, 0#8)] := by decide

/-! ## Decoding: words written out from the spec -/

/-- R54: `SORT4 4, 3, 2, 1`. -/
theorem test_decode_sort4 :
    decode .sn4w32b 0x100000001000000020000000300000004#130 = .sort4 4#32 3#32 2#32 1#32 := by decide

/-- R54 and `95_test_vectors.md` 2.4: `NOP4`, with and without data. -/
theorem test_decode_nop4 :
    decode .sn4w32b 0#130 = .nop4 0#128 ∧
    decode .sn4w32b 0x0FFFFFFFFFFFFFFFFFFFFFFFFFFFFFFFF#130 = .nop4 (BitVec.allOnes 128) := by decide

/-- R54 and `95_test_vectors.md` 2.4: `RST4`, and `RST4` with `in_valid = 1`. -/
theorem test_decode_rst4 :
    decode .sn4w32b 0x200000000000000000000000000000000#130 = .rst4 false 0#128 ∧
    decode .sn4w32b 0x300000001000000020000000300000004#130 = .rst4 true 0x00000001000000020000000300000004#128 := by
  decide

/-- R54 and `95_test_vectors.md` 2.4: `SORT6B 6, 5, 4, 3, 2, 1`, and a word whose padding is not 0. -/
theorem test_decode_sort6b :
    decode .sn6w8b 0x100000000000000000000010203040506#130 = .sort6b 6#8 5#8 4#8 3#8 2#8 1#8 0#80 ∧
    decode .sn6w8b 0x100000001000000020000000300000004#130 =
      .sort6b 4#8 0#8 0#8 0#8 3#8 0#8 0x00000001000000020000#80 := by decide

/-- `95_test_vectors.md` 2.4: `NOP6`, data ignored. -/
theorem test_decode_nop6 :
    decode .sn6w8b 0#130 = .nop6 0#128 ∧
    decode .sn6w8b 0x0FFFFFFFFFFFFFFFFFFFFFFFFFFFFFFFF#130 = .nop6 (BitVec.allOnes 128) := by decide

/-- `95_test_vectors.md` 2.4: `RST6`, and `RST6` with `in_valid = 1`. -/
theorem test_decode_rst6 :
    decode .sn6w8b 0x200000000000000000000000000000000#130 = .rst6 false 0#128 ∧
    decode .sn6w8b 0x300000001000000020000000300000004#130 = .rst6 true 0x00000001000000020000000300000004#128 := by
  decide

/-- The table's numbering (R46): bit 0 is `in_data[0]`, bit 129 is `rst`; a bit at 130 is no control word. -/
theorem test_decodeTableWord :
    decodeTableWord 130 (2 ^ 128 + 5) = some (.sort4 5#32 0#32 0#32 0#32) ∧
    decodeTableWordOf .sn6w8b 130 (2 ^ 128 + 5) = some (.sort6b 5#8 0#8 0#8 0#8 0#8 0#8 0#80) ∧
    decodeTableWord 136 (2 ^ 130) = none ∧ decodeNat .sn4w32b (2 ^ 130) = .error .widerThanControlWord := by decide

/-- The table's word runs as the next step. -/
theorem test_withFetchWord_runs_first :
    nextView (validBits .sn4w32b) (step (State.reset.withFetchWord 130 (2 ^ 128))) = some [true, false, false] ∧
    nextView (validBits .sn6w8b) (step (State.reset.withFetchWordOf .sn6w8b 130 (2 ^ 128))) =
      some [true, false, false, false, false] := by decide

/-! ## Parameters and rounds -/

/-- R6, with R61 and R81: the sizes are the numbers of pairs, and a data word is its lanes. -/
theorem test_params_agree_with_pairs :
    (params .sn4w32b).casCount = ([Round4.r1, .r2, .r3].flatMap pairs4).length ∧
    (params .sn6w8b).casCount = ([Round6.r1, .r2, .r3, .r4, .r5].flatMap pairs6).length ∧
    ∀ b ∈ [Block.sn4w32b, .sn6w8b], (params b).l * (params b).w = (params b).dataBits ∧
      (params b).latency = (params b).rounds ∧ (params b).l = 2 ^ (params b).idxBits := by decide

/-- `95_test_vectors.md` V-L2-4.4 round 2: masks, indices and lanes of [INT_MIN, INT_MAX, -1, 0]. -/
theorem test_round4_extrema :
    let x := beat4 0x80000000#32 0x7FFFFFFF#32 0xFFFFFFFF#32 0#32
    (List.range 4).map (maskAt (table4 .r2) x) = [0xFFFFFFFF#32, 0#32, 0#32, 0xFFFFFFFF#32] ∧
    (List.range 4).map (indexAt (table4 .r2) x) = [0#32, 3#32, 2#32, 1#32] ∧
    lanes 32 4 (round4 .r2 x) = [0x80000000#32, 0#32, 0xFFFFFFFF#32, 0x7FFFFFFF#32] := by decide

/-- `95_test_vectors.md` V-L2-6.2 round 2: a tie in lanes 3 and 5 and a three-apart swap. -/
theorem test_round6_tie :
    let x := beat6 3#8 3#8 1#8 2#8 1#8 2#8 0#80
    (List.range 6).map (indexAt (table6 .r2) x) = [2#8, 4#8, 0#8, 5#8, 1#8, 5#8] ∧
    lanes 8 6 (round6 .r2 x) = [1#8, 1#8, 3#8, 2#8, 3#8, 2#8] := by decide

/-! ## The operations: one edge each (`95_test_vectors.md` 2.3) -/

/-- V-L2-op.2. -/
theorem test_sort4_all_stages_full :
    nextView (fun t => (validBits .sn4w32b t, words4 t)) (exec (.sort4 4#32 3#32 2#32 1#32) (s4 true true true)) =
      some ([true, true, true], [[3, 4, 1, 2], [1, 2, 3, 4], [1, 2, 3, 4]]) := by decide

/-- V-L2-op.1. -/
theorem test_sort4_empty_stages_keep_words :
    nextView (fun t => (validBits .sn4w32b t, words4 t)) (exec (.sort4 4#32 3#32 2#32 1#32) (s4 false false false)) =
      some ([true, false, false], [[3, 4, 1, 2], [1, 3, 2, 4], [9, 9, 9, 9]]) := by decide

/-- V-L2-op.4. -/
theorem test_nop4_alternating_stages :
    nextView (fun t => (validBits .sn4w32b t, words4 t)) (exec (.nop4 (BitVec.allOnes 128)) (s4 true false true)) =
      some ([false, true, false], [[3, 4, 1, 2], [1, 2, 3, 4], [9, 9, 9, 9]]) := by decide

/-- V-L2-op.5. -/
theorem test_nop4_last_stage_loads :
    nextView (fun t => (validBits .sn4w32b t, words4 t)) (exec (.nop4 0#128) (s4 false true false)) =
      some ([false, false, true], [[3, 4, 1, 2], [1, 3, 2, 4], [1, 2, 3, 4]]) := by decide

/-- V-L2-op.7. -/
theorem test_rst4_drops_the_beat :
    nextView (fun t => (validBits .sn4w32b t, words4 t)) (exec (.rst4 true (BitVec.allOnes 128)) (s4 true true true)) =
      some ([false, false, false], [[3, 4, 1, 2], [1, 3, 2, 4], [9, 9, 9, 9]]) := by decide

/-- The 6w8b form of V-L2-op.2, with V-L2-6.1's rounds. -/
theorem test_sort6b_all_stages_full :
    nextView (fun t => (validBits .sn6w8b t, words6 t))
      (exec (.sort6b 6#8 5#8 4#8 3#8 2#8 1#8 0#80) (s6 true true true true true)) =
      some ([true, true, true, true, true],
        [[5, 6, 3, 4, 1, 2], [3, 1, 5, 2, 6, 4], [1, 3, 2, 5, 4, 6], [1, 2, 3, 4, 5, 6], [1, 2, 3, 4, 5, 6]]) := by
  decide

/-- Padding passes round 1 (R97; V-L2-6.4's padding bytes). -/
theorem test_sort6b_padding :
    nextView (fun t => padding t.b6.q1)
      (exec (.sort6b 5#8 0xFD#8 0#8 0x7F#8 0x80#8 9#8 0xA9A8A7A6A5A4A3A2A1A0#80) (s6 false false false false false)) =
      some 0xA9A8A7A6A5A4A3A2A1A0#80 := by decide

/-- V-L2-op.9. -/
theorem test_nop6_alternating_stages :
    nextView (fun t => (validBits .sn6w8b t, words6 t)) (exec (.nop6 0#128) (s6 true false true false true)) =
      some ([false, true, false, true, false],
        [[5, 6, 3, 4, 1, 2], [3, 1, 5, 2, 6, 4], [1, 3, 2, 5, 4, 6], [1, 2, 3, 4, 5, 6], [9, 9, 9, 9, 9, 9]]) := by
  decide

/-- The 6w8b form of V-L2-op.7. -/
theorem test_rst6_drops_the_beat :
    nextView (fun t => (validBits .sn6w8b t, words6 t)) (exec (.rst6 true 0#128) (s6 true true true true true)) =
      some ([false, false, false, false, false], words6 (s6 true true true true true)) := by decide

/-! ## Undefined levels (R104) -/

theorem test_undefined_padding_bit_is_no_refusal :
    (beatPins (1#128 <<< 48)).refusal .sn6w8b = none ∧
    (beatPins (1#128 <<< 47)).refusal .sn6w8b = some (.undefinedInData .sn6w8b) ∧
    (beatPins (1#128 <<< 48)).refusal .sn4w32b = some (.undefinedInData .sn4w32b) := by decide

/-! ## Trace text and written words (R52 to R55) -/

/-- R53's layouts: hex, negative decimal, case, comment and a pseudo-operation (log 9 for the blank line). -/
theorem test_readTrace :
    readTrace ".block sorting_network_4w32b\nboot ; start\n\n SORT4 0x7FFFFFFF, 0x80000000, 0, -1\nWAIT 2\n".toList =
      some { block := .sn4w32b,
             lines := [.boot, .sort4 (.hex 8 0x7FFFFFFF) (.hex 8 0x80000000) (.decimal 0) (.decimal (-1)), .wait 2] } := by
  decide

theorem test_readTrace_pad :
    readTrace ".block sorting_network_6w8b\nSORT6B 1, 2, 3, 4, 5, 6, pad=0x00000000000000000001".toList =
      some { block := .sn6w8b,
             lines := [.sort6b (.decimal 1) (.decimal 2) (.decimal 3) (.decimal 4) (.decimal 5) (.decimal 6)
               (some (.hex 20 1))] } := by decide

theorem test_readTrace_refuses :
    readTrace ".block sorting_network_6w8b\nNOP4".toList = none ∧ readTrace "NOP4".toList = none ∧
    readTrace ".block sorting_network_4w32b\nSORT4 1, 2, 3".toList = none ∧
    readTrace ".block sorting_network_4w32b\nSORT4 1, 2, 3, 0x1".toList = none := by decide

/-! ## Witnesses: states and operands that meet the hypotheses of the statements -/

theorem witness_EncodeThenDecode :
    Instr.wf .sn4w32b (.sort4 0x80000000#32 0#32 0x7FFFFFFF#32 0xFFFFFFFF#32) = true ∧
    Instr.wf .sn4w32b (.nop4 (BitVec.allOnes 128)) = true ∧ Instr.wf .sn4w32b (.rst4 true (BitVec.allOnes 128)) = true ∧
    Instr.wf .sn6w8b (.sort6b 0x80#8 0#8 0x7F#8 0xFF#8 1#8 2#8 (BitVec.allOnes 80)) = true ∧
    Instr.wf .sn6w8b (.nop6 (BitVec.allOnes 128)) = true ∧ Instr.wf .sn6w8b (.rst6 true (BitVec.allOnes 128)) = true := by
  decide

theorem witness_OperationMap :
    (0x200000000000000000000000000000000#130).getLsbD 129 = true ∧
    (0x3FFFFFFFFFFFFFFFFFFFFFFFFFFFFFFFF#130).getLsbD 129 = true ∧
    (0x1FFFFFFFFFFFFFFFFFFFFFFFFFFFFFFFF#130).getLsbD 129 = false ∧
    (0x1FFFFFFFFFFFFFFFFFFFFFFFFFFFFFFFF#130).getLsbD 128 = true ∧
    (0x0FFFFFFFFFFFFFFFFFFFFFFFFFFFFFFFF#130).getLsbD 129 = false ∧
    (0x0FFFFFFFFFFFFFFFFFFFFFFFFFFFFFFFF#130).getLsbD 128 = false := by decide

theorem witness_FetchWord :
    decodeTableWordOf .sn6w8b 130 (2 ^ 130 - 1) = some (.rst6 true (BitVec.allOnes 128)) ∧
    decodeTableWord 130 (2 ^ 129 - 1) =
      some (.sort4 0xFFFFFFFF#32 0xFFFFFFFF#32 0xFFFFFFFF#32 0xFFFFFFFF#32) := by decide

theorem witness_Round4EqualsCasRound :
    (table4 .r3).p 0 = 0 ∧ (table4 .r3).p 3 = 3 ∧ 0 < (table4 .r2).p 0 ∧ 2 < (table4 .r1).p 2 ∧
    (table4 .r1).p 1 < 1 ∧ (table4 .r2).p 3 < 3 := by decide

theorem witness_Round6EqualsCasRound :
    (table6 .r5).p 0 = 0 ∧ (table6 .r1).p 15 = 15 ∧ 0 < (table6 .r2).p 0 ∧ 4 < (table6 .r1).p 4 ∧
    (table6 .r1).p 1 < 1 ∧ (table6 .r2).p 5 < 5 := by decide

theorem witness_Tables4FollowThePairs :
    (0, 2) ∈ pairs4 .r2 ∧ (∀ ij ∈ pairs4 .r3, 3 ≠ ij.1 ∧ 3 ≠ ij.2) ∧ (table4 .r2).p 3 ≠ 3 := by decide

theorem witness_Tables6FollowThePairs :
    (1, 4) ∈ pairs6 .r2 ∧ (∀ ij ∈ pairs6 .r4, 5 ≠ ij.1 ∧ 5 ≠ ij.2) ∧ (∀ ij ∈ pairs6 .r1, 6 ≠ ij.1 ∧ 6 ≠ ij.2) := by
  decide

theorem witness_Index4StaysInThePair :
    maskAt (table4 .r1) (beat4 1#32 2#32 0#32 0#32) 0 = maskAt (table4 .r1) (beat4 0#32 5#32 7#32 0#32) 0 ∧
    maskAt (table4 .r1) (beat4 1#32 2#32 0#32 0#32) 3 = maskAt (table4 .r1) (beat4 0#32 5#32 7#32 7#32) 3 := by decide

theorem witness_TiedLanesSelectTheSameValue :
    (0 < (table4 .r1).p 0 ∧ lane 32 (0#128) 0 = lane 32 (0#128) ((table4 .r1).p 0)) ∧
    (1 < (table4 .r3).p 1 ∧ lane 32 (beat4 0#32 7#32 7#32 0#32) 1 = lane 32 (beat4 0#32 7#32 7#32 0#32) ((table4 .r3).p 1)) ∧
    (4 < (table6 .r1).p 4 ∧ lane 8 (BitVec.allOnes 128) 4 = lane 8 (BitVec.allOnes 128) ((table6 .r1).p 4)) := by decide

theorem witness_SortedIsTheUniqueArrangement :
    [1#8, 2#8, 2#8].Perm [2#8, 1#8, 2#8] ∧ NonDescending [1#8, 2#8, 2#8] ∧ [1#8, 2#8, 2#8] = sortedW [2#8, 1#8, 2#8] := by
  unfold NonDescending
  decide

theorem witness_Net6ActiveLanesIgnorePadding :
    ∀ k < 48, (0xFFFFFFFFFFFFFFFFFFFF010203040506#128).getLsbD k = (0x010203040506#128).getLsbD k := by decide +kernel

theorem witness_Net4OrderFree : (lanes 32 4 (beat4 1#32 2#32 2#32 3#32)).Perm (lanes 32 4 (beat4 2#32 3#32 1#32 2#32)) := by
  decide

theorem witness_Net6OrderFree :
    (lanes 8 6 (beat6 1#8 2#8 3#8 4#8 5#8 6#8 7#80)).Perm (lanes 8 6 (beat6 6#8 5#8 4#8 3#8 2#8 1#8 7#80)) ∧
    padding (beat6 1#8 2#8 3#8 4#8 5#8 6#8 7#80) = padding (beat6 6#8 5#8 4#8 3#8 2#8 1#8 7#80) := by decide

/-- `95_test_vectors.md` V-L1-5's two inputs. -/
theorem witness_ScalarNetworksSort :
    [6#32, 5#32, 4#32, 3#32, 2#32, 1#32].length = 6 ∧ [2#32, 1#32].length = 2 ∧
    scalarNet6 [6#32, 5#32, 4#32, 3#32, 2#32, 1#32] = [1#32, 2#32, 3#32, 4#32, 5#32, 6#32] ∧
    scalarNet2 [2#32, 1#32] = [1#32, 2#32] := by decide

/-- Words with `rst = 1`, and words with `rst = 0` at which the stages are full and empty. -/
theorem witness_ResetLeaves_and_StageAdvance :
    (ctrlWord true true 7#128).getLsbD 129 = true ∧ (ctrlWord false true 7#128).getLsbD 129 = false ∧
    (ctrlWord false false 0#128).getLsbD 129 = false ∧
    (s4 true false true).b4.v1 = true ∧ (s4 true false true).b4.v2 = false ∧
    (s4 false true true).b4.v1 = false ∧ (s4 false true true).b4.v2 = true := by decide

/-- Completion: every operation answers a next state from a state with every stage full. -/
theorem witness_every_operation_completes :
    let s := (s4 true true true).setB6 (s6 true true true true true).b6
    ∀ i ∈ [Instr.sort4 4#32 3#32 2#32 1#32, .nop4 1#128, .rst4 true 1#128, .sort6b 6#8 5#8 4#8 3#8 2#8 1#8 1#80,
      .nop6 1#128, .rst6 true 1#128], (nextView (fun _ => ()) (exec i s)).isSome = true := by decide

theorem witness_OperationLeavesTheOtherBlock :
    (∃ t, exec (.sort4 4#32 3#32 2#32 1#32) (s6 true true true true true) = .next t) ∧
    Instr.block (.sort4 4#32 3#32 2#32 1#32) = .sn4w32b ∧
    (∃ t, exec (.rst6 true 0#128) (s4 true true true) = .next t) ∧ Instr.block (.rst6 true 0#128) = .sn6w8b :=
  ⟨⟨_, rfl⟩, rfl, ⟨_, rfl⟩, rfl⟩

theorem witness_EdgesOfDifferentBlocksCommute :
    Block.sn4w32b ≠ .sn6w8b ∧ InputsDefined .sn4w32b (beatPins 0#128) ∧
    InputsDefined .sn6w8b (beatPins (1#128 <<< 127)) := by
  unfold InputsDefined
  decide

theorem witness_HeldResetIsOneReset :
    [ctrlWord true false 0#128, ctrlWord true true 1#128] ≠ [] ∧
    ∀ w ∈ [ctrlWord true false 0#128, ctrlWord true true 1#128], CtrlWord.rst w = true :=
  ⟨by simp, by simp⟩

theorem witness_StepRunsTheDecodedOperation :
    (queued (edgeOf .sn4w32b (ctrlWord false true 5#128))).events = [edgeOf .sn4w32b (ctrlWord false true 5#128)] ∧
    (queued (edgeOf .sn6w8b (ctrlWord true true 5#128))).events = [edgeOf .sn6w8b (ctrlWord true true 5#128)] :=
  ⟨rfl, rfl⟩

theorem witness_StoppedClock : (s4 true true true).events = [] := rfl

/-- A wire of each kind undefined, at the first and last bit each block reads; the refusals those steps give. -/
theorem witness_UndefinedLevelIsRefused :
    refusalOf (step (queued (.edge .sn4w32b { beatPins 0#128 with rst := .undef }))) = some (.undefinedRst .sn4w32b) ∧
    refusalOf (step (queued (.edge .sn6w8b { beatPins 0#128 with inValid := .undef }))) =
      some (.undefinedInValid .sn6w8b) ∧
    refusalOf (step (queued (.edge .sn4w32b (beatPins (1#128 <<< 127))))) = some (.undefinedInData .sn4w32b) ∧
    refusalOf (step (queued (.edge .sn6w8b (beatPins (1#128 <<< 47))))) = some (.undefinedInData .sn6w8b) ∧
    refusalOf (step (queued (.edge .sn6w8b (beatPins 1#128)))) = some (.undefinedInData .sn6w8b) := by decide

/-- The three clauses of a step that is not refused: reset with everything else undefined, a bubble with undefined
data, and a beat with an undefined padding bit or none. -/
theorem witness_IgnoredLevels :
    (∀ b ∈ [Block.sn4w32b, .sn6w8b], InputsDefined b
      { rst := .one, inValid := .undef, inData := 0#128, inDataUndef := BitVec.allOnes 128 }) ∧
    (∀ b ∈ [Block.sn4w32b, .sn6w8b], InputsDefined b
      { rst := .zero, inValid := .zero, inData := 0#128, inDataUndef := BitVec.allOnes 128 }) ∧
    (∀ k < (params .sn6w8b).n * (params .sn6w8b).w,
      (beatPins (BitVec.allOnes 128 <<< 48)).inDataUndef.getLsbD k = false) ∧
    (∀ k < (params .sn4w32b).n * (params .sn4w32b).w, (beatPins 0#128).inDataUndef.getLsbD k = false) := by
  unfold InputsDefined
  decide

/-- A loss of power with nothing, a beat, an edge of the other block, and a reset edge of its own block behind it. -/
theorem witness_PowerLossKeepsTheOtherBlock :
    (queued (.powerOn .sn4w32b)).events = .powerOn .sn4w32b :: [] ∧
    ((s6 true true true true true).setEvents [.powerOn .sn4w32b, edgeOf .sn4w32b (ctrlWord false true 5#128)]).events =
      .powerOn .sn4w32b :: [edgeOf .sn4w32b (ctrlWord false true 5#128)] ∧
    ((s4 true true true).setEvents [.powerOn .sn6w8b, edgeOf .sn4w32b (ctrlWord true false 0#128)]).events =
      .powerOn .sn6w8b :: [edgeOf .sn4w32b (ctrlWord true false 0#128)] ∧
    ((s6 true true true true true).setEvents [.powerOn .sn4w32b, edgeOf .sn4w32b (ctrlWord true false 0#128)]).events =
      .powerOn .sn4w32b :: edgeOf .sn4w32b (ctrlWord true false 0#128) :: [] ∧
    ((s4 true true true).setEvents [.powerOn .sn6w8b, edgeOf .sn6w8b (ctrlWord true true 9#128)]).events =
      .powerOn .sn6w8b :: edgeOf .sn6w8b (ctrlWord true true 9#128) :: [] := ⟨rfl, rfl, rfl, rfl, rfl⟩

/-- A loss of power leaves the block not booted, and the next reset edge boots it (R119, R120). -/
theorem test_powerOn_needs_boot :
    nextView (fun t => [t.booted .sn4w32b, t.booted .sn6w8b]) (step (queued (.powerOn .sn6w8b))) = some [true, false] ∧
    nextView (fun t => t.booted .sn6w8b) (exec (.rst6 false 0#128) (State.reset.setBooted .sn6w8b false)) = some true ∧
    nextView (fun t => t.booted .sn4w32b) (exec (.nop4 0#128) (State.reset.setBooted .sn4w32b false)) = some false := by
  decide

theorem witness_NoOutputIsConsumedBeforeBoot :
    ((s4 true true true).setBooted .sn4w32b false).booted .sn4w32b = false ∧
    ((s6 true true true true true).setBooted .sn6w8b false).booted .sn6w8b = false ∧
    CtrlWord.rst (ctrlWord false true 1#128) = false := by decide

/-- A state no reset gives, with a beat in the second stage, an edge queued, and the invariant. -/
theorem witness_StepKeepsInv :
    ∃ s t, MachineInv s ∧ step s = .next t ∧ s.b4.v2 = true ∧ t.b4.v3 = true ∧ t.booted .sn4w32b = true := by
  let x : Block4 := { v1 := false, v2 := true, v3 := false, s1 := 0#128,
                      s2 := round4 .r2 (round4 .r1 (beat4 4#32 3#32 2#32 1#32)), s3 := 0#128 }
  let s : State := (State.reset.setB4 x).setEvents [edgeOf .sn4w32b (ctrlWord false false 0#128)]
  refine ⟨s, edgeEffect .sn4w32b (ctrlWord false false 0#128) (s.setEvents []),
    ⟨fun _ => ⟨?_, ?_, ?_⟩, fun _ => ⟨?_, ?_, ?_, ?_, ?_⟩⟩, ?_, rfl, ?_, rfl⟩
  · intro h; cases h
  · exact fun _ => ⟨_, rfl⟩
  · intro h; cases h
  · intro h; cases h
  · intro h; cases h
  · intro h; cases h
  · intro h; cases h
  · intro h; cases h
  · rw [step, fetch_edgeOf .sn4w32b (ctrlWord false false 0#128) [] s rfl]
    exact exec_decode_eq _ _ _
  · simp [edgeEffect, s, x]

/-- A state with a full last stage: the outputs are a beat's. -/
theorem witness_OutputsOfARunAreSorted :
    ∃ s t, MachineInv s ∧ RunsTo 1 s t ∧ t.booted .sn4w32b = true ∧ outValid .sn4w32b t = true := by
  obtain ⟨s, t, h, hs, _, ht, hb⟩ := witness_StepKeepsInv
  exact ⟨s, t, h, (runsTo_succ hs).2 (runsTo_zero.2 rfl), hb, ht⟩

theorem witness_BeatAppearsAfterLatency :
    isBeat (ctrlWord false true 5#128) = true ∧
    [ctrlWord false true 1#128, ctrlWord false false 2#128].length = latency .sn4w32b - 1 ∧
    (∀ w ∈ [ctrlWord false true 1#128, ctrlWord false false 2#128], CtrlWord.rst w = false) ∧
    (List.replicate 4 (ctrlWord false true 1#128)).length = latency .sn6w8b - 1 ∧
    (∀ w ∈ List.replicate 4 (ctrlWord false true 1#128), CtrlWord.rst w = false) := by
  refine ⟨by decide, rfl, by simp, rfl, fun w hw => ?_⟩
  rw [List.eq_of_mem_replicate hw, rst_ctrlWord]

/-- The last edge at which a reset still discards the beat: one word, or three, between them. -/
theorem witness_ResetDiscardsBeatsInFlight :
    [ctrlWord false true 1#128].length < latency .sn4w32b - 1 ∧
    (List.replicate 3 (ctrlWord false false 0#128)).length < latency .sn6w8b - 1 := by decide

theorem witness_InResetState :
    InResetState .sn4w32b (s4 false false false) ∧ InResetState .sn6w8b (s6 false false false false false) := by
  unfold InResetState NoBeatInFlight
  decide

theorem witness_PowerOnStateIsNotObserved :
    CtrlWord.rst (ctrlWord true true (BitVec.allOnes 128)) = true ∧ s4 true true true ≠ s4 false false false := by
  decide +kernel

theorem witness_BackToBack :
    InResetState .sn6w8b (s6 false false false false false) ∧
    latency .sn6w8b ≤ (List.replicate 5 (beat6 6#8 5#8 4#8 3#8 2#8 1#8 0#80)).length ∧
    latency .sn4w32b ≤ (List.replicate 3 (beat4 4#32 3#32 2#32 1#32)).length := by
  unfold InResetState NoBeatInFlight
  decide

/-- A booted machine, for the calls and for the runs of a reset in flight. -/
theorem witness_booted :
    (s4 true true true).booted .sn4w32b = true ∧ (s6 true true true true true).booted .sn6w8b = true := by decide

theorem witness_TraceWords :
    Trace.wf { block := .sn4w32b, lines := [.boot, .sort4 (.decimal 4) (.decimal 3) (.decimal (-2147483648)) (.hex 8 1),
      .nop4, .rst4, .wait 1, .drain] } = true ∧
    Trace.wf { block := .sn6w8b, lines := [.boot, .sort6b (.decimal 127) (.decimal (-128)) (.hex 2 255) (.decimal 0)
      (.decimal 1) (.decimal 2) (some (.hex 20 (2 ^ 80 - 1))), .nop6, .rst6, .wait 0, .drain] } = true := by decide

/-- Operands and padding at both ends of their ranges, and a text that is a trace (R53). -/
theorem witness_TraceWords_operands :
    Literal.wf 8 (.decimal (-128)) = true ∧ Literal.wf 8 (.decimal 127) = true ∧
    Literal.wf 32 (.decimal (-2147483648)) = true ∧ Literal.wf 32 (.decimal 2147483647) = true ∧
    Literal.wf 8 (.hex 2 0xFF) = true ∧ Literal.wf 32 (.hex 8 0) = true ∧ Literal.wf 32 (.hex 8 0xFFFFFFFF) = true ∧
    padWf (some (.hex 20 0)) = true ∧ padWf (some (.hex 20 (2 ^ 80 - 1))) = true ∧
    readTrace ".block sorting_network_6w8b\nBOOT".toList = some { block := .sn6w8b, lines := [.boot] } := by decide

/-- R53: "`0x80000000` is -2147483648". -/
theorem test_hex_sign_bit : sval (Literal.bits 32 (.hex 8 0x80000000)) = -2147483648 := by decide

/-- The caller's buffer of 16 bytes [4, 3, 2, 1] at 100, and a byte behind it. -/
def buffer4 : Memory :=
  [(100, 4#8), (101, 0#8), (102, 0#8), (103, 0#8), (104, 3#8), (105, 0#8), (106, 0#8), (107, 0#8)] ++
  [(108, 2#8), (109, 0#8), (110, 0#8), (111, 0#8), (112, 1#8), (113, 0#8), (114, 0#8), (115, 0#8), (116, 0xEE#8)]

/-- R38: element i at `base + 4*i`, least significant byte first; the stored bytes and the byte behind them. -/
theorem witness_StoreAndLoad4 :
    load4 buffer4 100 = some (beat4 4#32 3#32 2#32 1#32) ∧
    (store4 buffer4 100 (beat4 0x04030201#32 2#32 3#32 4#32)).map (fun m => [m.byte 100, m.byte 103, m.byte 115, m.byte 116])
      = some [some 1#8, some 4#8, some 0#8, some 0xEE#8] ∧
    (∀ k < 16, (buffer4.byte (100 + k)).isSome = true) ∧ store4 buffer4 102 0#128 = none := by decide

/-- R38: the 6w8b buffer of six bytes; the padding is not written back. -/
theorem witness_StoreAndLoad6 :
    let m : Memory := [(0, 6#8), (1, 5#8), (2, 4#8), (3, 3#8), (4, 2#8), (5, 1#8), (6, 0xEE#8)]
    load6 m 0 7#80 = some (beat6 6#8 5#8 4#8 3#8 2#8 1#8 7#80) ∧
    (store6 m 0 (beat6 1#8 2#8 3#8 4#8 5#8 6#8 (BitVec.allOnes 80))).map (fun m => (List.range 7).map m.byte) =
      some [some 1#8, some 2#8, some 3#8, some 4#8, some 5#8, some 6#8, some 0xEE#8] ∧
    (∀ k < 6, (m.byte (0 + k)).isSome = true) ∧ load6 m 2 0#80 = none := by decide

end Sys2Proof.Tests
end

section
/-! PROOFS. The scope statements: `SORTED_W` is determined by its input's multiset and the order (R11). -/

namespace Sys2Proof.Machine

/-- Equal signed values are equal words, so the order by signed value leaves no choice between two arrangements. -/
theorem NonDescending.eq_of_perm {W : Nat} {xs ys : List (BitVec W)} (hx : NonDescending xs) (hy : NonDescending ys)
    (h : xs.Perm ys) : xs = ys :=
  h.eq_of_pairwise (fun _ _ _ _ hab hba => sval_injective (le_antisymm hab hba)) hx hy

/-- Settles O14: `sortedW` is such an arrangement, and two non-descending arrangements of one list are equal. -/
theorem sortedIsTheUniqueArrangement : Obligations.SortedIsTheUniqueArrangement := by
  intro W es out
  constructor
  · rintro rfl
    exact ⟨sortedW_perm es, sortedW_nonDescending es⟩
  · rintro ⟨hperm, hord⟩
    exact hord.eq_of_perm (sortedW_nonDescending es) (hperm.trans (sortedW_perm es).symm)

end Sys2Proof.Machine
end

section
/-! PROOFS. The state: what a reset edge leaves (R30), the outputs (R22, R23), and the invariant that each full stage of
a booted block holds the rounds of some beat, at reset and along every step (R18, R19, R119). -/

namespace Sys2Proof.Machine

/-! ### The outputs -/

@[simp] theorem outValid_setEvents (b : Block) (s : State) (es : List Event) :
    outValid b (s.setEvents es) = outValid b s := by cases b <;> rfl

@[simp] theorem outData_setEvents (b : Block) (s : State) (es : List Event) :
    outData b (s.setEvents es) = outData b s := by cases b <;> rfl

/-- Settles O46: the ports are the last stage's fields, and the queue is none of them. -/
theorem outputsAreTheLastStage : Obligations.OutputsAreTheLastStage := fun s es =>
  ⟨rfl, rfl, rfl, rfl, fun b => ⟨outValid_setEvents b s es, outData_setEvents b s es⟩⟩

/-! ### A reset edge (R30, R71, R94) -/

section ResetEdge
variable {cw : CtrlWord} (hr : CtrlWord.rst cw = true) (b : Block) (s : State)
include hr

theorem validBits_edgeEffect_of_rst : validBits b (edgeEffect b cw s) = (validBits b s).map (fun _ => false) := by
  cases b <;> simp [edgeEffect, hr, validBits]

theorem stageWords_edgeEffect_of_rst : stageWords b (edgeEffect b cw s) = stageWords b s := by
  cases b <;> simp [edgeEffect, hr, stageWords]

theorem outValid_edgeEffect_of_rst : outValid b (edgeEffect b cw s) = false := by
  cases b <;> simp [edgeEffect, hr, outValid]

theorem outData_edgeEffect_of_rst : outData b (edgeEffect b cw s) = outData b s := by
  cases b <;> simp [edgeEffect, hr, outData]

theorem inResetState_edgeEffect_of_rst : InResetState b (edgeEffect b cw s) := by
  constructor
  · simp [edgeEffect_booted, hr]
  · simp [NoBeatInFlight, validBits_edgeEffect_of_rst hr]

end ResetEdge

/-- Settles O29: the operation is its word's effect (`exec_decode_eq`), and each clause is what a reset word's effect
leaves. -/
theorem resetLeavesTheListedValues : Obligations.ResetLeavesTheListedValues := fun cw s hr b =>
  ⟨edgeEffect b cw s, exec_decode_eq b cw s, validBits_edgeEffect_of_rst hr b s, stageWords_edgeEffect_of_rst hr b s,
    outValid_edgeEffect_of_rst hr b s, outData_edgeEffect_of_rst hr b s, inResetState_edgeEffect_of_rst hr b s⟩

/-! ### The invariant where no beat is in flight -/

theorem stages4Sound_of_noBeatInFlight {s : State} (h : NoBeatInFlight .sn4w32b s) : Stages4Sound s.b4 := by
  simp only [NoBeatInFlight, validBits, List.forall_mem_cons] at h
  obtain ⟨h1, h2, h3, -⟩ := h
  simp [Stages4Sound, h1, h2, h3]

theorem stages6Sound_of_noBeatInFlight {s : State} (h : NoBeatInFlight .sn6w8b s) : Stages6Sound s.b6 := by
  simp only [NoBeatInFlight, validBits, List.forall_mem_cons] at h
  obtain ⟨h1, h2, h3, h4, h5, -⟩ := h
  simp [Stages6Sound, h1, h2, h3, h4, h5]

theorem inResetState_reset (b : Block) : InResetState b State.reset := by
  cases b <;> simp [InResetState, NoBeatInFlight, validBits, State.booted, State.reset]

/-- Settles O43: no stage of the reset state is full, so the invariant asks nothing of any. -/
theorem resetMeetsInv : Obligations.ResetMeetsInv :=
  ⟨inResetState_reset, fun _ => stages4Sound_of_noBeatInFlight (inResetState_reset .sn4w32b).2,
    fun _ => stages6Sound_of_noBeatInFlight (inResetState_reset .sn6w8b).2⟩

/-! ### The invariant along a step

Stage by stage: a stage that loads takes round `f` of a word which already is `g` of some beat. -/

/-- What a stage loads from a sound one is one round more of the same beat. -/
theorem stage_load_sound {f g : DataWord → DataWord} {v : Bool} {w kept : DataWord}
    (h : v = true → ∃ d, w = g d) : v = true → ∃ d, (if v then f w else kept) = f (g d) := by
  intro hv
  obtain ⟨d, rfl⟩ := h hv
  exact ⟨d, if_pos hv⟩

theorem Stages4Sound.advance {x : Block4} (h : Stages4Sound x) : Stages4Sound x.advance := by
  obtain ⟨h1, h2, -⟩ := h
  exact ⟨h1, stage_load_sound h1, stage_load_sound h2⟩

theorem Stages4Sound.enter {x : Block4} (h : Stages4Sound x) (d : DataWord) : Stages4Sound (x.enter d) := by
  obtain ⟨-, h2, h3⟩ := h.advance
  exact ⟨fun _ => ⟨d, rfl⟩, h2, h3⟩

theorem Stages4Sound.bubble {x : Block4} (h : Stages4Sound x) : Stages4Sound x.bubble := by
  obtain ⟨-, h2, h3⟩ := h.advance
  exact ⟨by simp, h2, h3⟩

theorem stages4Sound_clear (x : Block4) : Stages4Sound x.clear := by simp [Stages4Sound]

theorem Stages6Sound.advance {x : Block6} (h : Stages6Sound x) : Stages6Sound x.advance := by
  obtain ⟨h1, h2, h3, h4, -⟩ := h
  exact ⟨h1, stage_load_sound h1, stage_load_sound h2, stage_load_sound h3, stage_load_sound h4⟩

theorem Stages6Sound.enter {x : Block6} (h : Stages6Sound x) (d : DataWord) : Stages6Sound (x.enter d) := by
  obtain ⟨-, h2, h3, h4, h5⟩ := h.advance
  exact ⟨fun _ => ⟨d, rfl⟩, h2, h3, h4, h5⟩

theorem Stages6Sound.bubble {x : Block6} (h : Stages6Sound x) : Stages6Sound x.bubble := by
  obtain ⟨-, h2, h3, h4, h5⟩ := h.advance
  exact ⟨by simp, h2, h3, h4, h5⟩

theorem stages6Sound_clear (x : Block6) : Stages6Sound x.clear := by simp [Stages6Sound]

theorem MachineInv.setEvents {s : State} (h : MachineInv s) (es : List Event) : MachineInv (s.setEvents es) := h

theorem MachineInv.setFree {s : State} (h : MachineInv s) (b : Block) (n : Nat) : MachineInv (s.setFree b n) := by
  simpa [MachineInv] using h

/-- A power loss leaves its block not booted, where the invariant asks nothing (R119), and the other block as it was. -/
theorem MachineInv.after_powerOn {s : State} (h : MachineInv s) (b : Block) : MachineInv (powerOn b s) := by
  obtain ⟨h4, h6⟩ := h
  cases b with
  | sn4w32b => exact ⟨by simp [powerOn], h6⟩
  | sn6w8b => exact ⟨h4, by simp [powerOn]⟩

/-- An edge empties its block, feeds it a beat or feeds it a bubble, and leaves the other block as it was. -/
theorem MachineInv.after_edgeEffect {s : State} (h : MachineInv s) (b : Block) (cw : CtrlWord) :
    MachineInv (edgeEffect b cw s) := by
  obtain ⟨h4, h6⟩ := h
  cases b with
  | sn4w32b =>
    simp only [edgeEffect]
    split
    · exact ⟨fun _ => stages4Sound_clear s.b4, h6⟩
    · split
      · exact ⟨fun hb => (h4 hb).enter _, h6⟩
      · exact ⟨fun hb => (h4 hb).bubble, h6⟩
  | sn6w8b =>
    simp only [edgeEffect]
    split
    · exact ⟨h4, fun _ => stages6Sound_clear s.b6⟩
    · split
      · exact ⟨h4, fun hb => (h6 hb).enter _⟩
      · exact ⟨h4, fun hb => (h6 hb).bubble⟩

/-- Settles O44: a step does nothing, loses a block's power, or has one control word's effect (`step_cases`). -/
theorem stepKeepsInv : Obligations.StepKeepsInv := by
  intro s t h hstep
  obtain ⟨-, rfl⟩ | ⟨b, es, -, rfl⟩ | ⟨b, p, es, -, -, rfl⟩ := step_cases hstep
  · exact h
  · exact (h.setEvents es).after_powerOn b
  · exact ((h.setEvents es).setFree b _).after_edgeEffect b _

end Sys2Proof.Machine
end

section
/-! PROOFS. The caller's memory: a store writes its own bytes and no other, and a load gives the buffer's bytes (R36,
R38). The two accesses of a 6w8b buffer, of four bytes and of two, together do what one of six bytes would. -/

namespace Sys2Proof.Machine

/-! ### Two accesses side by side -/

theorem Memory.setBytes_append (m : Memory) (base : Nat) (xs ys : List (BitVec 8)) :
    m.setBytes base (xs ++ ys) = (m.setBytes base xs).bind fun m' => m'.setBytes (base + xs.length) ys := by
  induction xs generalizing m base with
  | nil => rfl
  | cons x xs ih =>
    simp only [List.cons_append, Memory.setBytes, List.length_cons]
    cases m.setByte base x with
    | none => rfl
    | some m' => simp only [ih, Nat.add_assoc, Nat.add_comm 1]

theorem pack_append {W : Nat} (xs ys : List (BitVec W)) :
    pack W (xs ++ ys) = (pack W ys <<< (W * xs.length)) ||| pack W xs := by
  induction xs with
  | nil => simp [pack]
  | cons x xs ih =>
    rw [List.cons_append, pack, pack, ih, BitVec.shiftLeft_or_distrib, ← BitVec.shiftLeft_add, BitVec.or_assoc]
    rfl

theorem lane_ushiftRight (W j : Nat) (v : DataWord) (i : Nat) : lane W (v >>> (W * j)) i = lane W v (j + i) := by
  apply BitVec.eq_of_getLsbD_eq
  intro k hk
  simp [getLsbD_lane, Nat.mul_add, Nat.add_assoc]

theorem store6_eq_write (m : Memory) (base : Nat) (out : DataWord) : store6 m base out = m.write base 6 out := by
  have hhi : lanes 8 2 (out >>> 32) = [lane 8 out 4, lane 8 out 5] := by
    rw [show 32 = 8 * 4 from rfl]
    simp only [lanes, funext (lane_ushiftRight 8 4 out)]
    rfl
  have hl : lanes 8 6 out = lanes 8 4 out ++ lanes 8 2 (out >>> 32) := by rw [hhi]; rfl
  rw [Memory.write, hl, Memory.setBytes_append]
  unfold store6 Memory.write
  cases m.setBytes base (lanes 8 4 out) <;> rfl

/-! ### Stores -/

theorem Memory.write_isSome {m : Memory} {base n : Nat} (v : DataWord)
    (h : ∀ k < n, (m.byte (base + k)).isSome = true) : (m.write base n v).isSome = true :=
  Memory.setBytes_isSome (by simpa using h)

theorem Memory.byte_write_inside {m m' : Memory} {base n : Nat} {v : DataWord} (h : m.write base n v = some m')
    {k : Nat} (hk : k < n) : m'.byte (base + k) = some (lane 8 v k) := by
  rw [Memory.byte_write h, if_pos (by omega), Nat.add_sub_cancel_left]

theorem Memory.byte_write_outside {m m' : Memory} {base n : Nat} {v : DataWord} (h : m.write base n v = some m')
    {a : Nat} (ha : a < base ∨ base + n ≤ a) : m'.byte a = m.byte a := by
  rw [Memory.byte_write h, if_neg (by omega)]

/-- Settles O56: both stores are one write, of 16 bytes or of 6. -/
theorem storeWritesItsBytesOnly : Obligations.StoreWritesItsBytesOnly := by
  constructor
  · intro m m' base out h
    exact ⟨fun _ => Memory.byte_write_inside h, fun _ => Memory.byte_write_outside h⟩
  · intro m m' base out h
    rw [store6_eq_write] at h
    exact ⟨fun _ => Memory.byte_write_inside h, fun _ => Memory.byte_write_outside h⟩

/-! ### Loads -/

theorem load4_eq_some {m : Memory} {base : Nat} {x : DataWord} :
    load4 m base = some x ↔ ∀ k < 16, m.byte (base + k) = some (lane 8 x k) := by
  constructor
  · exact Memory.byte_of_read (by omega)
  · intro h
    rw [load4, Memory.read_of_bytes _ h]
    exact congrArg some (pack_lanes (by omega) (by omega) x)

/-- A load of a 6w8b buffer is the beat of its six bytes and the padding driven (R38, R48). -/
theorem load6_of_bytes {m : Memory} {base : Nat} (f : Nat → BitVec 8) (pad : BitVec 80)
    (h : ∀ k < 6, m.byte (base + k) = some (f k)) :
    load6 m base pad = some (beat6 (f 0) (f 1) (f 2) (f 3) (f 4) (f 5) pad) := by
  have hlo : m.read base 4 = some (pack 8 [f 0, f 1, f 2, f 3]) :=
    Memory.read_of_bytes f fun k hk => h k (by omega)
  have hhi : m.read (base + 4) 2 = some (pack 8 [f 4, f 5]) :=
    Memory.read_of_bytes (fun k => f (4 + k)) fun k hk => by rw [Nat.add_assoc, h _ (by omega)]
  have hjoin : pack 8 [f 0, f 1, f 2, f 3, f 4, f 5] = pack 8 [f 4, f 5] <<< 32 ||| pack 8 [f 0, f 1, f 2, f 3] :=
    pack_append [f 0, f 1, f 2, f 3] [f 4, f 5]
  simp only [load6, hlo, hhi, beat6, hjoin, BitVec.or_assoc]

theorem isSome_byte_of_load6 {m : Memory} {base : Nat} {pad : BitVec 80} {x : DataWord}
    (h : load6 m base pad = some x) :
    ∀ k < 6, (m.byte (base + k)).isSome = true := by
  unfold load6 at h
  split at h
  · rename_i lo hi hlo hhi
    intro k hk
    by_cases h4 : k < 4
    · simp [Memory.byte_of_read (by omega) hlo k h4]
    · have hb := Memory.byte_of_read (by omega) hhi (k - 4) (by omega)
      rw [show base + 4 + (k - 4) = base + k by omega] at hb
      simp [hb]
  · cases h

/-- The bytes of a buffer the caller owns, as a function of their place. -/
theorem Memory.exists_bytes {m : Memory} {base n : Nat} (h : ∀ k < n, (m.byte (base + k)).isSome = true) :
    ∃ f : Nat → BitVec 8, ∀ k < n, m.byte (base + k) = some (f k) :=
  ⟨fun k => (m.byte (base + k)).getD 0#8, fun k hk => by
    obtain ⟨v, hv⟩ := Option.isSome_iff_exists.1 (h k hk)
    simp [hv]⟩

theorem load6_eq_some {m : Memory} {base : Nat} {pad : BitVec 80} {x : DataWord} :
    load6 m base pad = some x ↔ padding x = pad ∧ ∀ k < 6, m.byte (base + k) = some (lane 8 x k) := by
  constructor
  · intro h
    obtain ⟨f, hf⟩ := Memory.exists_bytes (isSome_byte_of_load6 h)
    rw [load6_of_bytes f pad hf, Option.some.injEq] at h
    have hl : lanes 8 6 x = [f 0, f 1, f 2, f 3, f 4, f 5] := by rw [← h, lanes_beat6]
    refine ⟨by rw [← h, padding_beat6], fun k hk => ?_⟩
    rw [hf k hk, ← getElem?_lanes 8 6 x k hk, hl]
    interval_cases k <;> rfl
  · rintro ⟨rfl, h⟩
    rw [load6_of_bytes _ _ h, beat6_lanes]

theorem exists_load4 {m : Memory} {base : Nat} (h : ∀ k < 16, (m.byte (base + k)).isSome = true) :
    ∃ x, load4 m base = some x := by
  obtain ⟨f, hf⟩ := Memory.exists_bytes h
  exact ⟨_, Memory.read_of_bytes f hf⟩

theorem exists_load6 {m : Memory} {base : Nat} (pad : BitVec 80) (h : ∀ k < 6, (m.byte (base + k)).isSome = true) :
    ∃ x, load6 m base pad = some x := by
  obtain ⟨f, hf⟩ := Memory.exists_bytes h
  exact ⟨_, load6_of_bytes f pad hf⟩

/-! ### A stored word is loaded again -/

theorem load4_of_store4 {m m' : Memory} {base : Nat} {out : DataWord} (h : store4 m base out = some m') :
    load4 m' base = some out :=
  load4_eq_some.2 fun _ => Memory.byte_write_inside h

/-- A word of the padding driven and the active lanes of `out`, written as O57 writes it. -/
def withPadding (pad : BitVec 80) (out : DataWord) : DataWord :=
  (pad.setWidth 128 <<< 48) ||| (out &&& 0x0000FFFFFFFFFFFF#128)

theorem getLsbD_withPadding (pad : BitVec 80) (out : DataWord) {k : Nat} (hk : k < 128) :
    (withPadding pad out).getLsbD k = if k < 48 then out.getLsbD k else pad.getLsbD (k - 48) := by
  have hmask : (0x0000FFFFFFFFFFFF#128).getLsbD k = decide (k < 48) := by
    rw [show 0x0000FFFFFFFFFFFF#128 = (BitVec.allOnes 48).setWidth 128 by decide, BitVec.getLsbD_setWidth,
      BitVec.getLsbD_allOnes]
    simp [hk]
  simp only [withPadding, BitVec.getLsbD_or, BitVec.getLsbD_shiftLeft, BitVec.getLsbD_setWidth, BitVec.getLsbD_and,
    hmask, hk]
  by_cases h : k < 48
  · simp [h]
  · simp [h, show k - 48 < 128 by omega]

theorem padding_withPadding (pad : BitVec 80) (out : DataWord) : padding (withPadding pad out) = pad := by
  apply BitVec.eq_of_getLsbD_eq
  intro k hk
  rw [padding, BitVec.getLsbD_extractLsb', getLsbD_withPadding _ _ (by omega)]
  simp [hk]

theorem lane_withPadding (pad : BitVec 80) (out : DataWord) {i : Nat} (hi : i < 6) :
    lane 8 (withPadding pad out) i = lane 8 out i := by
  apply BitVec.eq_of_getLsbD_eq
  intro k hk
  rw [getLsbD_lane, getLsbD_lane, getLsbD_withPadding _ _ (by omega), if_pos (by omega)]

theorem activeLanes_withPadding (pad : BitVec 80) (out : DataWord) :
    lanes 8 6 (withPadding pad out) = lanes 8 6 out :=
  List.map_congr_left fun _ hi => lane_withPadding pad out (List.mem_range.1 hi)

theorem load6_of_store6 {m m' : Memory} {base : Nat} {out : DataWord} (pad : BitVec 80)
    (h : store6 m base out = some m') : load6 m' base pad = some (withPadding pad out) := by
  rw [store6_eq_write] at h
  refine load6_eq_some.2 ⟨padding_withPadding pad out, fun k hk => ?_⟩
  rw [Memory.byte_write_inside h hk, lane_withPadding pad out hk]

/-- Settles O57: a load is the word of the buffer's bytes (`load4_eq_some`, `load6_eq_some`), and those are the ones a
store wrote. -/
theorem loadReadsTheBuffer : Obligations.LoadReadsTheBuffer :=
  ⟨fun _ _ _ => load4_eq_some.1, fun _ _ _ _ => load6_eq_some.1, fun _ _ _ _ => load4_of_store4,
    fun _ _ _ pad _ => load6_of_store6 pad⟩

end Sys2Proof.Machine
end

section
/-! PROOFS. A round does its pairs' compare-and-swaps (R67, R90), and so, by the 0-1 principle, the networks sort
(R72, R95). -/

namespace Sys2Proof.Machine

/-! ### One lane of one round -/

theorem lane_round4 (r : Round4) (x : DataWord) {i : Nat} (hi : i < 4) :
    lane 32 (round4 r x) i = casLane (table4 r) x i := by
  rw [round4, lane_roundWord _ _ _ _ hi (by decide)]
  apply selected_eq_casLane
  · cases r <;> interval_cases i <;> decide
  · cases r <;> interval_cases i <;> decide

theorem lane_round6 (r : Round6) (x : DataWord) {i : Nat} (hi : i < 16) :
    lane 8 (round6 r x) i = casLane (table6 r) x i := by
  rw [round6, lane_roundWord _ _ _ _ hi (by decide)]
  apply selected_eq_casLane
  · cases r <;> interval_cases i <;> decide
  · cases r <;> interval_cases i <;> decide

/-! ### All lanes of one round -/

theorem lanes_round4 (r : Round4) (x : DataWord) : lanes 32 4 (round4 r x) = casAll (pairs4 r) (lanes 32 4 x) := by
  have hl : lanes 32 4 (round4 r x) = (List.range 4).map (casLane (table4 r) x) :=
    List.map_congr_left fun i hi => lane_round4 r x (List.mem_range.1 hi)
  rw [hl, lanes_four]
  cases r <;>
    simp [List.range_succ, casLane, table4, RoundTable.p, pairs4, casAll, casPair, smax_comm]

theorem lanes_sixteen (x : DataWord) :
    lanes 8 16 x = [lane 8 x 0, lane 8 x 1, lane 8 x 2, lane 8 x 3, lane 8 x 4, lane 8 x 5, lane 8 x 6, lane 8 x 7,
      lane 8 x 8, lane 8 x 9, lane 8 x 10, lane 8 x 11, lane 8 x 12, lane 8 x 13, lane 8 x 14, lane 8 x 15] := rfl

theorem lanes_round6 (r : Round6) (x : DataWord) : lanes 8 16 (round6 r x) = casAll (pairs6 r) (lanes 8 16 x) := by
  have hl : lanes 8 16 (round6 r x) = (List.range 16).map (casLane (table6 r) x) :=
    List.map_congr_left fun i hi => lane_round6 r x (List.mem_range.1 hi)
  rw [hl, lanes_sixteen]
  cases r <;>
    simp [List.range_succ, casLane, table6, RoundTable.p, paddingPartners, pairs6, casAll, casPair, smax_comm]

/-- The pairs of a round are active lanes, so the active lanes of its result come from those of its input (R81). -/
theorem activeLanes_round6 (r : Round6) (x : DataWord) :
    lanes 8 6 (round6 r x) = casAll (pairs6 r) (lanes 8 6 x) := by
  rw [lanes_six_eq_take, lanes_round6, lanes_six_eq_take, casAll_take]
  cases r <;> decide

/-! ### The networks -/

/-- The pairs of `NET4`, round after round (R61). -/
def netPairs4 : List (Nat × Nat) := pairs4 .r1 ++ pairs4 .r2 ++ pairs4 .r3

/-- The pairs of `NET6`, round after round (R81). -/
def netPairs6 : List (Nat × Nat) := pairs6 .r1 ++ pairs6 .r2 ++ pairs6 .r3 ++ pairs6 .r4 ++ pairs6 .r5

theorem lanes_net4 (x : DataWord) : lanes 32 4 (net4 x) = casAll netPairs4 (lanes 32 4 x) := by
  simp only [net4, netPairs4, lanes_round4, casAll_append]

theorem activeLanes_net6 (x : DataWord) : lanes 8 6 (net6 x) = casAll netPairs6 (lanes 8 6 x) := by
  simp only [net6, netPairs6, activeLanes_round6, casAll_append]

theorem netPairs4_sort_bools (v : List Bool) (hv : v.length = 4) :
    BoolSorted (netPairs4.foldl (fun ys ij => boolCas ij ys) v) := by
  match v, hv with
  | [a, b, c, d], _ => revert a b c d; decide

theorem netPairs6_sort_bools (v : List Bool) (hv : v.length = 6) :
    BoolSorted (netPairs6.foldl (fun ys ij => boolCas ij ys) v) := by
  match v, hv with
  | [a, b, c, d, e, f], _ => revert a b c d e f; decide

/-- A pair sequence that sorts every list of `n` truth values gives the sorted arrangement of every list of `n`
elements (the 0-1 principle). -/
theorem casAll_eq_sortedW {W n : Nat} (ps : List (Nat × Nat)) (hps : ∀ ij ∈ ps, ij.1 < ij.2 ∧ ij.2 < n)
    (hb : ∀ v : List Bool, v.length = n → BoolSorted (ps.foldl (fun ys ij => boolCas ij ys) v))
    (xs : List (BitVec W)) (hn : xs.length = n) : casAll ps xs = sortedW xs :=
  (sortedIsTheUniqueArrangement W xs _).2
    ⟨casAll_perm ps xs (hn ▸ hps), casAll_nonDescending ps hps hb xs hn⟩

/-- `NET4` sorts (R72). -/
theorem lanes_net4_eq_sortedW (x : DataWord) : lanes 32 4 (net4 x) = sortedW (lanes 32 4 x) := by
  rw [lanes_net4, casAll_eq_sortedW netPairs4 (by decide) netPairs4_sort_bools _ (length_lanes ..)]

/-- `NET6` sorts its active lanes (R95). -/
theorem activeLanes_net6_eq_sortedW (x : DataWord) : lanes 8 6 (net6 x) = sortedW (lanes 8 6 x) := by
  rw [activeLanes_net6, casAll_eq_sortedW netPairs6 (by decide) netPairs6_sort_bools _ (length_lanes ..)]

end Sys2Proof.Machine
end

section
/-! PROOFS. Runs of one block without a reset: the valid bits are a shift register (R70, R93), and after `LATENCY` edges
the first edge's beat is on the outputs (R121). -/

namespace Sys2Proof.Machine

/-! ### One edge -/

theorem validBits_edgeEffect {cw : CtrlWord} (hr : CtrlWord.rst cw = false) (b : Block) (s : State) :
    validBits b (edgeEffect b cw s) = CtrlWord.inValid cw :: (validBits b s).dropLast := by
  cases b <;> cases hv : CtrlWord.inValid cw <;> simp [edgeEffect, hr, hv, validBits]

theorem length_validBits (b : Block) (s : State) : (validBits b s).length = latency b := by cases b <;> rfl

/-- The registers of 4w32b after an edge with `rst = 0` (R69, R70, R73). -/
theorem b4_edgeEffect {cw : CtrlWord} (hr : CtrlWord.rst cw = false) (s : State) :
    (edgeEffect .sn4w32b cw s).b4 = { s.b4.advance with
      v1 := CtrlWord.inValid cw
      s1 := if CtrlWord.inValid cw then round4 .r1 (CtrlWord.inData cw) else s.b4.s1 } := by
  cases hv : CtrlWord.inValid cw <;> simp [edgeEffect, hr, hv] <;> rfl

/-- The registers of 6w8b after an edge with `rst = 0` (R92, R93, R98). -/
theorem b6_edgeEffect {cw : CtrlWord} (hr : CtrlWord.rst cw = false) (s : State) :
    (edgeEffect .sn6w8b cw s).b6 = { s.b6.advance with
      qv1 := CtrlWord.inValid cw
      q1 := if CtrlWord.inValid cw then round6 .r1 (CtrlWord.inData cw) else s.b6.q1 } := by
  cases hv : CtrlWord.inValid cw <;> simp [edgeEffect, hr, hv] <;> rfl

/-! ### `LATENCY` edges -/

/-- Without a reset the valid bits are the last `LATENCY` words' `in_valid`, the latest first, with what the stages
held behind them. -/
theorem validBits_edgeEffects (b : Block) (cws : List CtrlWord) (s : State)
    (hr : ∀ w ∈ cws, CtrlWord.rst w = false) :
    validBits b (edgeEffects b cws s) = ((cws.map CtrlWord.inValid).reverse ++ validBits b s).take (latency b) := by
  induction cws generalizing s with
  | nil => simp [edgeEffects, ← length_validBits b s]
  | cons cw cws ih =>
    obtain ⟨hcw, hcws⟩ := List.forall_mem_cons.1 hr
    have hlen := length_validBits b s
    show validBits b (edgeEffects b cws (edgeEffect b cw s)) = _
    rw [ih _ hcws, validBits_edgeEffect hcw, List.map_cons, List.reverse_cons, List.append_assoc,
      List.take_append, List.take_append, List.singleton_append]
    congr 1
    cases hn : latency b - (cws.map CtrlWord.inValid).reverse.length with
    | zero => rfl
    | succ n =>
      rw [List.take_succ_cons, List.take_succ_cons, List.dropLast_eq_take, List.take_take, min_eq_left (by omega)]

/-- After `LATENCY` edges without a reset, what the stages held before has left. -/
theorem validBits_after_latency (b : Block) (cws : List CtrlWord) (s : State)
    (hr : ∀ w ∈ cws, CtrlWord.rst w = false) (hlen : cws.length = latency b) :
    validBits b (edgeEffects b cws s) = (cws.map CtrlWord.inValid).reverse := by
  rw [validBits_edgeEffects b cws s hr, List.take_left' (by simpa using hlen)]

theorem outValid_eq_getLast? (b : Block) (s : State) : some (outValid b s) = (validBits b s).getLast? := by
  cases b <;> rfl

/-- A beat's word moves on a stage an edge, whatever comes behind it (R70, R93). -/
theorem outData_after_latency (b : Block) (cw : CtrlWord) (after : List CtrlWord) (s : State)
    (hbeat : isBeat cw = true) (hlen : after.length = latency b - 1) (hr : ∀ w ∈ after, CtrlWord.rst w = false) :
    outData b (edgeEffects b (cw :: after) s) = net b (CtrlWord.inData cw) := by
  obtain ⟨hrst, hval⟩ : CtrlWord.rst cw = false ∧ CtrlWord.inValid cw = true := by simpa [isBeat] using hbeat
  cases b with
  | sn4w32b =>
    match after, hlen with
    | [w1, w2], _ =>
      simp only [List.forall_mem_cons] at hr
      simp [edgeEffects, outData, net, net4, b4_edgeEffect, hrst, hr, hval, Block4.advance]
  | sn6w8b =>
    match after, hlen with
    | [w1, w2, w3, w4], _ =>
      simp only [List.forall_mem_cons] at hr
      simp [edgeEffects, outData, net, net6, b6_edgeEffect, hrst, hr, hval, Block6.advance]

theorem outValid_after_latency (b : Block) (cw : CtrlWord) (after : List CtrlWord) (s : State)
    (hbeat : isBeat cw = true) (hlen : after.length = latency b - 1) (hr : ∀ w ∈ after, CtrlWord.rst w = false) :
    outValid b (edgeEffects b (cw :: after) s) = true := by
  obtain ⟨hrst, hval⟩ : CtrlWord.rst cw = false ∧ CtrlWord.inValid cw = true := by simpa [isBeat] using hbeat
  have hL : 0 < latency b := by cases b <;> decide
  have hbits := validBits_after_latency b (cw :: after) s (List.forall_mem_cons.2 ⟨hrst, hr⟩)
    (by rw [List.length_cons]; omega)
  have hlast := outValid_eq_getLast? b (edgeEffects b (cw :: after) s)
  simpa [hbits, hval] using hlast

/-! ### A drain, and a beat with bubbles behind it -/

theorem encode_bubbleOf (b : Block) : encode (bubbleOf b) = ctrlWord false false 0#128 := by cases b <;> rfl

/-- `n` cycles of a bubble. -/
def bubbles (n : Nat) : List CtrlWord := List.replicate n (ctrlWord false false 0#128)

theorem rst_of_mem_bubbles (n : Nat) : ∀ w ∈ bubbles n, CtrlWord.rst w = false := by
  intro w hw
  rw [List.eq_of_mem_replicate hw, rst_ctrlWord]

@[simp] theorem length_bubbles (n : Nat) : (bubbles n).length = n := List.length_replicate

@[simp] theorem validBits_setEvents (b : Block) (s : State) (es : List Event) :
    validBits b (s.setEvents es) = validBits b s := by cases b <;> rfl

theorem noBeatInFlight_after_bubbles (b : Block) (s : State) :
    NoBeatInFlight b (edgeEffects b (bubbles (latency b)) s) := by
  rw [NoBeatInFlight, validBits_after_latency b _ s (rst_of_mem_bubbles _) (length_bubbles _)]
  simp [bubbles]

/-- The control words of DRAIN are `LATENCY` bubbles (R55, R56). -/
theorem words_drain (b : Block) : (Line.drain.expand b).map encode = bubbles (latency b) := by
  rw [Line.expand, List.map_replicate, encode_bubbleOf, bubbles]

/-- Settles O52: a drain is `LATENCY` bubbles, whose `in_valid` are the valid bits after them. -/
theorem drainEmptiesThePipeline : Obligations.DrainEmptiesThePipeline := by
  intro b s
  have hrun := runsTo_drive b (bubbles (latency b)) s
  rw [length_bubbles] at hrun
  rw [words_drain]
  refine ⟨_, hrun, ?_, rfl⟩
  rw [NoBeatInFlight, validBits_setEvents]
  exact noBeatInFlight_after_bubbles b s

/-- What a caller is given at the end of a run of its beat and `LATENCY-1` bubbles. -/
theorem sortBeat_of_runsTo {b : Block} {x : DataWord} {s t : State}
    (h : RunsTo (latency b) (s.drive b (ctrlWord false true x :: bubbles (latency b - 1))) t) :
    sortBeat b x s = if t.booted b && outValid b t then some (outData b t, t) else none := by
  unfold RunsTo bubbles at h
  simp only [sortBeat, h]

/-- A booted block gives a caller's beat back as its network's word (R121). -/
theorem sortBeat_eq_net {b : Block} {s : State} (hb : s.booted b = true) (x : DataWord) :
    ∃ t, sortBeat b x s = some (net b x, t) := by
  have hlen : (ctrlWord false true x :: bubbles (latency b - 1)).length = latency b := by cases b <;> rfl
  have hrun := runsTo_drive b (ctrlWord false true x :: bubbles (latency b - 1)) s
  rw [hlen] at hrun
  have hbeat : isBeat (ctrlWord false true x) = true := by simp [isBeat]
  have hvalid := outValid_after_latency b _ _ s hbeat (length_bubbles _) (rst_of_mem_bubbles _)
  have hdata := outData_after_latency b _ _ s hbeat (length_bubbles _) (rst_of_mem_bubbles _)
  rw [sortBeat_of_runsTo hrun]
  simp [edgeEffects_booted, hb, hvalid, hdata]

end Sys2Proof.Machine
end

section
/-! PROOFS. The in-place call: a load, a beat through the block and a store (R36, R38). -/

namespace Sys2Proof.Machine

theorem call4_eq_store4 {m : Memory} {base : Nat} {s : State} {x : DataWord} (hb : s.booted .sn4w32b = true)
    (hx : load4 m base = some x) : call4 m base s = store4 m base (net4 x) := by
  obtain ⟨t, ht⟩ := sortBeat_eq_net hb x
  simp only [call4, hx, ht, net]

theorem call6_eq_store6 {m : Memory} {base : Nat} {pad : BitVec 80} {s : State} {x : DataWord}
    (hb : s.booted .sn6w8b = true) (hx : load6 m base pad = some x) :
    call6 m base pad s = store6 m base (net6 x) := by
  obtain ⟨t, ht⟩ := sortBeat_eq_net hb x
  simp only [call6, hx, ht, net]

/-- Settles O58: an owned buffer can be loaded and stored to, the call stores `net4` of the loaded word, which the load
after it gives again, and `net4` sorts. -/
theorem inPlaceCall4Sorts : Obligations.InPlaceCall4Sorts := by
  intro m base s hb howned
  obtain ⟨x, hx⟩ := exists_load4 howned
  obtain ⟨m', hm'⟩ := Option.isSome_iff_exists.1 (Memory.write_isSome (net4 x) howned)
  exact ⟨m', x, net4 x, hx, (call4_eq_store4 hb hx).trans hm', load4_of_store4 hm', lanes_net4_eq_sortedW x,
    fun _ => Memory.byte_write_outside hm'⟩

/-- Settles O59: as for 4w32b, where the load after the call gives `net6`'s active lanes with the padding driven. -/
theorem inPlaceCall6Sorts : Obligations.InPlaceCall6Sorts := by
  intro m base pad s hb howned
  obtain ⟨x, hx⟩ := exists_load6 pad howned
  obtain ⟨m', hm'⟩ := Option.isSome_iff_exists.1 (Memory.write_isSome (net6 x) howned)
  have hstore : store6 m base (net6 x) = some m' := (store6_eq_write m base _).trans hm'
  refine ⟨m', x, withPadding pad (net6 x), hx, (call6_eq_store6 hb hx).trans hstore, load6_of_store6 pad hstore, ?_,
    fun _ => Memory.byte_write_outside hm'⟩
  rw [activeLanes_withPadding, activeLanes_net6_eq_sortedW]

end Sys2Proof.Machine
end

section
/-! PROOFS. The decoder and the encoder, case by case of the operation map (R50), and that each undoes the other (R46 to
R48, R51). -/

namespace Sys2Proof.Machine

/-! ### The operation map of R50, an equation per row -/

section OperationMap
variable {cw : CtrlWord}

theorem decode4_of_rst (hr : CtrlWord.rst cw = true) :
    decode .sn4w32b cw = .rst4 (CtrlWord.inValid cw) (CtrlWord.inData cw) := by
  simp only [decode, hr]

theorem decode4_of_beat (hr : CtrlWord.rst cw = false) (hv : CtrlWord.inValid cw = true) :
    decode .sn4w32b cw = decodeSort4 (CtrlWord.inData cw) := by
  simp only [decode, hr, hv]

theorem decode4_of_bubble (hr : CtrlWord.rst cw = false) (hv : CtrlWord.inValid cw = false) :
    decode .sn4w32b cw = .nop4 (CtrlWord.inData cw) := by
  simp only [decode, hr, hv]

theorem decode6_of_rst (hr : CtrlWord.rst cw = true) :
    decode .sn6w8b cw = .rst6 (CtrlWord.inValid cw) (CtrlWord.inData cw) := by
  simp only [decode, hr]

theorem decode6_of_beat (hr : CtrlWord.rst cw = false) (hv : CtrlWord.inValid cw = true) :
    decode .sn6w8b cw = decodeSort6b (CtrlWord.inData cw) := by
  simp only [decode, hr, hv]

theorem decode6_of_bubble (hr : CtrlWord.rst cw = false) (hv : CtrlWord.inValid cw = false) :
    decode .sn6w8b cw = .nop6 (CtrlWord.inData cw) := by
  simp only [decode, hr, hv]

end OperationMap

/-! ### A beat's layout is read as it was written (R47, R48) -/

theorem decodeSort4_beat4 (e0 e1 e2 e3 : BitVec 32) : decodeSort4 (beat4 e0 e1 e2 e3) = .sort4 e0 e1 e2 e3 := by
  have h := lanes_beat4 e0 e1 e2 e3
  rw [lanes_four] at h
  simpa [decodeSort4] using h

theorem decodeSort6b_beat6 (e0 e1 e2 e3 e4 e5 : BitVec 8) (pad : BitVec 80) :
    decodeSort6b (beat6 e0 e1 e2 e3 e4 e5 pad) = .sort6b e0 e1 e2 e3 e4 e5 pad := by
  have h := lanes_beat6 e0 e1 e2 e3 e4 e5 pad
  rw [lanes_six] at h
  simpa [decodeSort6b, padding_beat6] using h

theorem encode_decodeSort4 (d : DataWord) : encode (decodeSort4 d) = ctrlWord false true d := by
  rw [decodeSort4, encode, beat4_lanes]

theorem encode_decodeSort6b (d : DataWord) : encode (decodeSort6b d) = ctrlWord false true d := by
  rw [decodeSort6b, encode, beat6_lanes]

/-! ### The round trips -/

theorem decode_block_encode (i : Instr) : decode i.block (encode i) = i := by
  cases i with
  | sort4 e0 e1 e2 e3 =>
    rw [Instr.block, encode, decode4_of_beat (rst_ctrlWord ..) (inValid_ctrlWord ..), inData_ctrlWord,
      decodeSort4_beat4]
  | nop4 d => rw [Instr.block, encode, decode4_of_bubble (rst_ctrlWord ..) (inValid_ctrlWord ..), inData_ctrlWord]
  | rst4 v d => rw [Instr.block, encode, decode4_of_rst (rst_ctrlWord ..), inValid_ctrlWord, inData_ctrlWord]
  | sort6b e0 e1 e2 e3 e4 e5 pad =>
    rw [Instr.block, encode, decode6_of_beat (rst_ctrlWord ..) (inValid_ctrlWord ..), inData_ctrlWord,
      decodeSort6b_beat6]
  | nop6 d => rw [Instr.block, encode, decode6_of_bubble (rst_ctrlWord ..) (inValid_ctrlWord ..), inData_ctrlWord]
  | rst6 v d => rw [Instr.block, encode, decode6_of_rst (rst_ctrlWord ..), inValid_ctrlWord, inData_ctrlWord]

theorem decode_encode {b : Block} {i : Instr} (h : i.wf b = true) : decode b (encode i) = i := by
  obtain rfl : i.block = b := by simpa [Instr.wf] using h
  exact decode_block_encode i

/-- Settles O1: the block's control word of each operation falls in the operation's own row of the map, and its fields
are read back. -/
theorem encodeThenDecodeIsIdentity : Obligations.EncodeThenDecodeIsIdentity := fun _ _ => decode_encode

theorem encode_decode (b : Block) (cw : CtrlWord) : encode (decode b cw) = cw := by
  have hcw := ctrlWord_fields cw
  cases hr : CtrlWord.rst cw with
  | true =>
    rw [hr] at hcw
    cases b with
    | sn4w32b => rw [decode4_of_rst hr, encode, hcw]
    | sn6w8b => rw [decode6_of_rst hr, encode, hcw]
  | false =>
    cases hv : CtrlWord.inValid cw with
    | true =>
      rw [hr, hv] at hcw
      cases b with
      | sn4w32b => rw [decode4_of_beat hr hv, encode_decodeSort4, hcw]
      | sn6w8b => rw [decode6_of_beat hr hv, encode_decodeSort6b, hcw]
    | false =>
      rw [hr, hv] at hcw
      cases b with
      | sn4w32b => rw [decode4_of_bubble hr hv, encode, hcw]
      | sn6w8b => rw [decode6_of_bubble hr hv, encode, hcw]

theorem decode_wf (b : Block) (cw : CtrlWord) : (decode b cw).wf b = true := by
  cases b <;> cases hr : CtrlWord.rst cw <;> cases hv : CtrlWord.inValid cw <;> simp only [decode, hr, hv] <;> rfl

/-- Settles O2: each row of the map keeps all three fields of the word, and a word is its three fields
(`ctrlWord_fields`). -/
theorem decodeThenEncodeIsIdentity : Obligations.DecodeThenEncodeIsIdentity := fun b cw =>
  ⟨decode_wf b cw, encode_decode b cw⟩

/-! ### The table's match and mask -/

theorem encode_and_tableMask (i : Instr) : encode i &&& tableMask i = tableMatch i := by
  cases i with
  | sort4 e0 e1 e2 e3 => exact Laws.TableRow.sort4 e0 e1 e2 e3
  | nop4 d => exact Laws.TableRow.nop4 d
  | rst4 v d => exact Laws.TableRow.rst4 v d
  | sort6b e0 e1 e2 e3 e4 e5 pad => exact Laws.TableRow.sort6b e0 e1 e2 e3 e4 e5 pad
  | nop6 d => exact Laws.TableRow.nop6 d
  | rst6 v d => exact Laws.TableRow.rst6 v d

/-- Settles O3: the premises are the fields' own definitions, and a word is the encoding of what it decodes to, which
lies in its row of the table. -/
theorem operationMapTestsResetThenValid : Obligations.OperationMapTestsResetThenValid := by
  intro cw
  refine ⟨fun hr => ⟨decode4_of_rst hr, decode6_of_rst hr⟩, fun hr hv => ⟨?_, ?_⟩,
    fun hr hv => ⟨decode4_of_bubble hr hv, decode6_of_bubble hr hv⟩, fun b => ?_⟩
  · rw [decode4_of_beat hr hv]
    simp [decodeSort4, lane, CtrlWord.inData, BitVec.extractLsb'_extractLsb'_of_le]
  · rw [decode6_of_beat hr hv]
    simp [decodeSort6b, lane, padding, CtrlWord.inData, BitVec.extractLsb'_extractLsb'_of_le]
  · have h := encode_and_tableMask (decode b cw)
    rwa [encode_decode] at h

/-- Settles O4: the words are evaluated. -/
theorem writtenWordsDecode : Obligations.WrittenWordsDecode := by
  unfold Obligations.WrittenWordsDecode
  decide

end Sys2Proof.Machine
end

section
/-! PROOFS. One step at an edge: the operation that the word decodes to (R46, R50, R103), and the undefined levels that
the operation does not read (R51, R104). -/

namespace Sys2Proof.Machine

/-! ### Defined words -/

/-- Settles O33: what an operation answers is its word's effect (`exec_decode_eq`). -/
theorem everyControlWordRuns : Obligations.EveryControlWordRuns := fun b cw s =>
  ⟨edgeEffect b cw s, exec_decode_eq b cw s⟩

/-- Settles O38: a defined edge is fetched as its word, with only the queue moved (`fetch_edgeOf`). -/
theorem stepRunsTheDecodedOperation : Obligations.StepRunsTheDecodedOperation := by
  intro b cw es s h
  rw [step, fetch_edgeOf b cw es s h]

theorem decodeNat_of_lt {w : Nat} (hw : w < 2 ^ 130) (b : Block) :
    decodeNat b w = .ok (decode b (BitVec.ofNat 130 w)) := if_pos hw

theorem decodeNat_of_not_lt {w : Nat} (hw : ¬ w < 2 ^ 130) (b : Block) :
    decodeNat b w = .error .widerThanControlWord := if_neg hw

/-- A number decodes to an operation exactly where it is a control word (R46). -/
theorem decodeTableWordOf_eq_some {b : Block} {nbits w : Nat} {i : Instr} :
    decodeTableWordOf b nbits w = some i ↔
      w % 2 ^ nbits < 2 ^ 130 ∧ decode b (BitVec.ofNat 130 (w % 2 ^ nbits)) = i := by
  by_cases hw : w % 2 ^ nbits < 2 ^ 130
  · simp only [decodeTableWordOf, decodeNat_of_lt hw, Option.some.injEq, hw, true_and]
  · simp only [decodeTableWordOf, decodeNat_of_not_lt hw, reduceCtorEq, hw, false_and]

theorem withFetchWordOf_of_lt {b : Block} {nbits w : Nat} (hw : w % 2 ^ nbits < 2 ^ 130) (s : State) :
    s.withFetchWordOf b nbits w = s.setEvents (edgeOf b (BitVec.ofNat 130 (w % 2 ^ nbits)) :: s.events) :=
  if_pos hw

theorem step_withFetchWordOf {b : Block} {nbits w : Nat} {i : Instr} (h : decodeTableWordOf b nbits w = some i)
    (s : State) : step (s.withFetchWordOf b nbits w) = exec i s := by
  obtain ⟨hw, rfl⟩ := decodeTableWordOf_eq_some.1 h
  rw [withFetchWordOf_of_lt hw]
  exact stepRunsTheDecodedOperation b _ s.events _ rfl

/-- Settles O5: a word that decodes is put in front of the queue, and the step takes it off again (O38); the block-less
names are those of 4w32b. -/
theorem fetchWordRunsTheDecodedOperation : Obligations.FetchWordRunsTheDecodedOperation := fun _ _ _ _ s =>
  ⟨fun h => step_withFetchWordOf h s, fun h => step_withFetchWordOf h s⟩

/-! ### Undefined levels the operation does not read -/

/-- Bubble words have one effect (R73, R98). -/
theorem edgeEffect_of_bubble (b : Block) {cw cw' : CtrlWord} (s : State) (hr : CtrlWord.rst cw = false)
    (hv : CtrlWord.inValid cw = false) (hr' : CtrlWord.rst cw' = false) (hv' : CtrlWord.inValid cw' = false) :
    edgeEffect b cw s = edgeEffect b cw' s := by
  cases b <;> simp [edgeEffect, hr, hv, hr', hv']

theorem sameMachine_setFree (s : State) (b : Block) (n : Nat) : SameMachine (s.setFree b n) s := by
  simp [SameMachine]

/-- An edge at which no level that is read is undefined acts as any word of the same effect, the free values' counter
apart. -/
theorem step_sameMachine {b : Block} {p : Pins} {es : List Event} {s : State} {cw : CtrlWord}
    (h : s.events = .edge b p :: es) (hd : InputsDefined b p)
    (heff : edgeEffect b (p.word (Config.freeWord b (s.free b))) (s.setEvents es) =
      edgeEffect b cw (s.setEvents es)) :
    ∃ t u, step s = .next t ∧ exec (decode b cw) (s.setEvents es) = .next u ∧ SameMachine t u := by
  refine ⟨_, _, step_of_edge b p es s h hd, exec_decode_eq b cw _, ?_⟩
  rw [edgeEffect_setFree, heff]
  exact sameMachine_setFree _ _ _

/-- The bits of `in_data` a block samples: the defined ones, and free ones in the others' places (R104). -/
def Pins.sampledData (p : Pins) (free : CtrlWord) : DataWord :=
  if p.inDataUndef = 0#128 then p.inData
  else (p.inData &&& ~~~p.inDataUndef) ||| (CtrlWord.inData free &&& p.inDataUndef)

theorem Pins.word_eq (p : Pins) (free : CtrlWord) :
    p.word free = ctrlWord (p.rst.bit (CtrlWord.rst free)) (p.inValid.bit (CtrlWord.inValid free))
      (p.sampledData free) := rfl

theorem Pins.getLsbD_sampledData (p : Pins) (free : CtrlWord) {k : Nat} (hk : k < 128)
    (hdef : p.inDataUndef.getLsbD k = false) : (p.sampledData free).getLsbD k = p.inData.getLsbD k := by
  unfold Pins.sampledData
  split
  · rfl
  · simp only [BitVec.getLsbD_or, BitVec.getLsbD_and, BitVec.getLsbD_not, hdef, hk]
    simp

theorem inputsDefined_of_rst {b : Block} {p : Pins} (hr : p.rst = .one) : InputsDefined b p := by
  simp only [InputsDefined, Pins.refusal, hr]

theorem inputsDefined_of_bubble {b : Block} {p : Pins} (hr : p.rst = .zero) (hv : p.inValid = .zero) :
    InputsDefined b p := by
  simp only [InputsDefined, Pins.refusal, hr, hv]

theorem inputsDefined_of_beat {b : Block} {p : Pins} (hr : p.rst = .zero) (hv : p.inValid = .one)
    (hd : ∀ k < (params b).n * (params b).w, p.inDataUndef.getLsbD k = false) : InputsDefined b p := by
  simp only [InputsDefined, Pins.refusal, hr, hv, (undef_and_readBits b _).2 hd, if_true]

/-- Settles O41: the sampled word is a reset or a bubble whatever the free bits are, and such words have one effect; a
beat's word carries the sampled data, which agrees with `in_data` where that is defined. -/
theorem ignoredLevelsHaveNoEffect : Obligations.IgnoredLevelsHaveNoEffect := by
  intro b p es s h
  refine ⟨fun hr v d => ?_, fun hr hv d => ?_, fun hr hv hd => ?_⟩
  · apply step_sameMachine h (inputsDefined_of_rst hr)
    apply edgeEffect_of_rst <;> simp [Pins.word_eq, hr, Level.bit]
  · apply step_sameMachine h (inputsDefined_of_bubble hr hv)
    apply edgeEffect_of_bubble <;> simp [Pins.word_eq, hr, hv, Level.bit]
  · refine ⟨p.sampledData (Config.freeWord b (s.free b)), ?_⟩
    obtain ⟨t, u, hstep, hexec, hsame⟩ := step_sameMachine h (inputsDefined_of_beat hr hv hd) rfl
    rw [Pins.word_eq, hr, hv] at hexec
    exact ⟨t, u, fun k hk hdef => p.getLsbD_sampledData _ hk hdef, hstep, hexec, hsame⟩

end Sys2Proof.Machine
end

section
/-! PROOFS. Traces: the words of the lines (R52, R53), the operands' values, the pseudo-operations (R55 to R57) and the
written encoding (R54). -/

namespace Sys2Proof.Machine

/-! ### Pseudo-operations and the written encoding -/

/-- Settles O53: each expansion is its definition, at the block's latency and bubble. -/
theorem pseudoOperationsExpand : Obligations.PseudoOperationsExpand :=
  ⟨fun _ => rfl, fun _ => rfl, rfl, rfl, rfl, rfl⟩

/-- Settles O55: the digits are evaluated. -/
theorem writtenEncodingHasTheExamples : Obligations.WrittenEncodingHasTheExamples := by
  unfold Obligations.WrittenEncodingHasTheExamples
  decide

/-! ### The words of a trace's lines -/

theorem bubbleOf_wf (b : Block) : (bubbleOf b).wf b = true := by cases b <;> rfl

theorem resetOf_wf (b : Block) : (resetOf b).wf b = true := by cases b <;> rfl

/-- Every operation a well-formed line stands for is one of its block (R50, R52). -/
theorem wf_of_mem_expand {b : Block} {l : Line} (hl : l.wf b = true) {i : Instr} (hi : i ∈ l.expand b) :
    i.wf b = true := by
  cases l with
  | wait n => exact List.eq_of_mem_replicate hi ▸ bubbleOf_wf b
  | drain => exact List.eq_of_mem_replicate hi ▸ bubbleOf_wf b
  | boot => exact List.mem_singleton.1 hi ▸ resetOf_wf b
  -- an operation line: `Line.wf` asks for the block that its one operation belongs to
  | _ => simp_all [Line.wf, Line.expand, Instr.wf, Instr.block]

theorem map_decode_words {t : Trace} (ht : t.wf = true) :
    t.words.map (decode t.block) = t.lines.flatMap (Line.expand t.block) := by
  have hid : ∀ i ∈ t.lines.flatMap (Line.expand t.block), decode t.block (encode i) = i := by
    intro i hi
    obtain ⟨l, hl, hil⟩ := List.mem_flatMap.1 hi
    exact decode_encode (wf_of_mem_expand (List.all_eq_true.1 ht l hl) hil)
  rw [Trace.words, List.map_map]
  exact (List.map_congr_left hid).trans (List.map_id' _)

theorem words_append (b : Block) (xs ys : List Line) : Trace.words { block := b, lines := xs ++ ys } =
    Trace.words { block := b, lines := xs } ++ Trace.words { block := b, lines := ys } := by
  simp only [Trace.words, List.flatMap_append, List.map_append]

/-- The word of a SORT4 line has each operand in its field (R47, R53). -/
theorem words_sort4 (e0 e1 e2 e3 : Literal) : ∃ cw : CtrlWord,
    Trace.words { block := .sn4w32b, lines := [.sort4 e0 e1 e2 e3] } = [cw] ∧
    CtrlWord.rst cw = false ∧ CtrlWord.inValid cw = true ∧
    cw.extractLsb' 0 32 = e0.bits 32 ∧ cw.extractLsb' 32 32 = e1.bits 32 ∧
    cw.extractLsb' 64 32 = e2.bits 32 ∧ cw.extractLsb' 96 32 = e3.bits 32 := by
  refine ⟨ctrlWord false true (beat4 (e0.bits 32) (e1.bits 32) (e2.bits 32) (e3.bits 32)), rfl, rst_ctrlWord ..,
    inValid_ctrlWord .., ?_⟩
  simp only [extractLsb'_ctrlWord, Nat.reduceAdd, Nat.reduceLeDiff]
  exact fields_beat4 ..

/-- The padding that a SORT6B line drives: 0 without `pad=` (R53). -/
def padBits : Option Literal → BitVec 80
  | none => 0#80
  | some l => l.bits 80

/-- The word of a SORT6B line has each operand and the padding in its field (R48, R53). -/
theorem words_sort6b (e0 e1 e2 e3 e4 e5 : Literal) (pad : Option Literal) : ∃ cw : CtrlWord,
    Trace.words { block := .sn6w8b, lines := [.sort6b e0 e1 e2 e3 e4 e5 pad] } = [cw] ∧
    CtrlWord.rst cw = false ∧ CtrlWord.inValid cw = true ∧
    cw.extractLsb' 0 8 = e0.bits 8 ∧ cw.extractLsb' 8 8 = e1.bits 8 ∧ cw.extractLsb' 16 8 = e2.bits 8 ∧
    cw.extractLsb' 24 8 = e3.bits 8 ∧ cw.extractLsb' 32 8 = e4.bits 8 ∧ cw.extractLsb' 40 8 = e5.bits 8 ∧
    cw.extractLsb' 48 80 = padBits pad := by
  refine ⟨ctrlWord false true (beat6 (e0.bits 8) (e1.bits 8) (e2.bits 8) (e3.bits 8) (e4.bits 8) (e5.bits 8)
    (padBits pad)), rfl, rst_ctrlWord .., inValid_ctrlWord .., ?_⟩
  simp only [extractLsb'_ctrlWord, Nat.reduceAdd, Nat.reduceLeDiff]
  obtain ⟨h0, h1, h2, h3, h4, h5⟩ := fields_beat6 (e0.bits 8) (e1.bits 8) (e2.bits 8) (e3.bits 8) (e4.bits 8)
    (e5.bits 8) (padBits pad)
  exact ⟨h0, h1, h2, h3, h4, h5, padding_beat6 ..⟩

/-! ### The values of operands (R53) -/

theorem literal_wf_decimal {W : Nat} {v : Int} :
    Literal.wf W (.decimal v) = true ↔ -(2 ^ (W - 1) : Int) ≤ v ∧ v < 2 ^ (W - 1) := by
  simp [Literal.wf]

theorem literal_wf_hex {W : Nat} (hW : 4 ∣ W) {d v : Nat} :
    Literal.wf W (.hex d v) = true ↔ d = W / 4 ∧ v < 2 ^ W := by
  have hpow : 16 ^ (W / 4) = 2 ^ W := by rw [show 16 = 2 ^ 4 from rfl, ← Nat.pow_mul, Nat.mul_div_cancel' hW]
  simp only [Literal.wf, Bool.and_eq_true, decide_eq_true_eq]
  constructor
  · rintro ⟨rfl, hv⟩
    exact ⟨rfl, hpow ▸ hv⟩
  · rintro ⟨rfl, hv⟩
    exact ⟨rfl, hpow.symm ▸ hv⟩

theorem sval_bits_decimal {W : Nat} (hW : 0 < W) {v : Int} (h : Literal.wf W (.decimal v) = true) :
    sval (Literal.bits W (.decimal v)) = v := by
  obtain ⟨hlo, hhi⟩ := literal_wf_decimal.1 h
  rw [sval_eq_toInt]
  exact BitVec.toInt_ofInt_eq_self hW hlo hhi

theorem toNat_bits_hex {W d v : Nat} (h : v < 2 ^ W) : (Literal.bits W (.hex d v)).toNat = v :=
  (BitVec.toNat_ofNat v W).trans (Nat.mod_eq_of_lt h)

theorem padWf_hex {d v : Nat} : padWf (some (.hex d v)) = true ↔ d = 20 ∧ v < 2 ^ 80 :=
  literal_wf_hex (W := 80) (by decide)

/-! ### Texts -/

theorem wf_of_readTrace {text : List Char} {t : Trace} (h : readTrace text = some t) : t.wf = true := by
  unfold readTrace at h
  split at h
  · cases h
  · split at h
    · rename_i b ls _ _
      dsimp only at h
      split at h
      · rename_i hwf
        cases h
        exact hwf
      · cases h
    · cases h

/-- Settles O54: the words decode to the lines' operations by O1, each operation line's word has its operands in their
fields, an operand in range has its value, and a text is only read as a trace after the check. -/
theorem traceWordsDecodeToItsLines : Obligations.TraceWordsDecodeToItsLines := by
  refine ⟨fun t => map_decode_words, words_append, by decide, by decide, by decide, by decide, words_sort4, ?_, ?_,
    ?_, fun text t => wf_of_readTrace⟩
  · intro e0 e1 e2 e3 e4 e5 pad
    obtain ⟨cw, hwords, hr, hv, h0, h1, h2, h3, h4, h5, hpad⟩ := words_sort6b e0 e1 e2 e3 e4 e5 pad
    refine ⟨cw, hwords, hr, hv, h0, h1, h2, h3, h4, h5, ?_, ?_⟩
    · rintro rfl
      exact hpad
    · rintro p rfl
      exact hpad
  · intro W hW
    have hpos : 0 < W := by revert W; decide
    have hdvd : 4 ∣ W := by revert W; decide
    exact ⟨fun v => literal_wf_decimal, fun d v => literal_wf_hex hdvd, fun v => sval_bits_decimal hpos,
      fun d v h => toNat_bits_hex ((literal_wf_hex hdvd).1 h).2⟩
  · intro d v h
    obtain ⟨hd, hv⟩ := padWf_hex.1 h
    exact ⟨hd, toNat_bits_hex hv⟩

end Sys2Proof.Machine
end

section
/-! PROOFS. A round lane by lane and pair by pair: its compare-and-swap form (R67, R61, R81), the constant tables of
4w32b (R62, R63), the synthesized indices (R74), and ties (R75, R100). -/

namespace Sys2Proof.Machine

/-! ### The compare-and-swap form of a lane -/

section CasLane
variable {W : Nat} {t : RoundTable W} {i : Nat} (x : DataWord)

theorem casLane_of_self (h : t.p i = i) : casLane t x i = lane W x i := if_pos h

theorem casLane_of_lt (h : i < t.p i) : casLane t x i = smin (lane W x i) (lane W x (t.p i)) := by
  simp only [casLane, h.ne', h, if_true, if_false]

theorem casLane_of_gt (h : t.p i < i) : casLane t x i = smax (lane W x i) (lane W x (t.p i)) := by
  simp only [casLane, h.ne, h.not_gt, if_false]

end CasLane

/-- Settles O6: a lane of a round is `casLane` (`lane_round4`), whose three cases are the clauses. -/
theorem round4EqualsCasRound : Obligations.Round4EqualsCasRound := by
  intro r x i hi
  rw [lane_round4 r x hi]
  exact ⟨casLane_of_self x, casLane_of_lt x, casLane_of_gt x⟩

/-- Settles O8: both clauses are the lemmas the networks' sorting rests on. -/
theorem roundsApplyTheirPairs : Obligations.RoundsApplyTheirPairs := fun x =>
  ⟨fun r => lanes_round4 r x, fun r => lanes_round6 r x⟩

/-! ### The constant tables of 4w32b -/

/-- A lane passed through is not greater than itself (R62, R64). -/
theorem maskAt_of_self {W : Nat} {t : RoundTable W} {i : Nat} (h : t.p i = i) (x : DataWord) : maskAt t x i = 0#W := by
  rw [maskAt, h]
  exact laneMask_of_not_gt (lt_irrefl _)

theorem table4_involution (r : Round4) : ∀ i < 4, (table4 r).p ((table4 r).p i) = i := by cases r <;> decide

theorem table4_add (r : Round4) : ∀ i < 4, (table4 r).c i = BitVec.ofNat 32 (max i ((table4 r).p i)) := by
  cases r <;> decide

theorem table4_mask (r : Round4) : ∀ i < 4, (table4 r).p i ≠ i →
    (table4 r).k i = BitVec.ofInt 32 (min i ((table4 r).p i) - max i ((table4 r).p i) : Int) := by
  cases r <;> decide

/-- Settles O9: the tables are finite and are evaluated round by round; only the mask of a lane passed through speaks of
every word (`maskAt_of_self`). -/
theorem tables4FollowThePairs : Obligations.Tables4FollowThePairs := by
  refine ⟨?_, ?_, fun r i hi => ⟨table4_involution r i hi, table4_add r i hi, table4_mask r i hi⟩, ⟨rfl, rfl, rfl⟩,
    fun _ _ _ => maskAt_of_self, ?_⟩
  · intro r
    cases r <;> decide
  · intro r
    cases r <;> decide
  · decide

/-! ### Indices -/

/-- Where the add vector names the higher lane of a pair and the two vectors' sum the lower one, the index is the lower
lane where the partner is greater and the higher one where it is not (R65, R74). -/
theorem indexAt_eq_ite_min_max {W : Nat} {t : RoundTable W} {i : Nat} (x : DataWord)
    (hadd : t.c i = BitVec.ofNat W (max i (t.p i)))
    (hsum : t.p i ≠ i → t.c i + t.k i = BitVec.ofNat W (min i (t.p i))) :
    indexAt t x i = if sval (lane W x i) < sval (lane W x (t.p i)) then BitVec.ofNat W (min i (t.p i))
      else BitVec.ofNat W (max i (t.p i)) := by
  rw [indexAt_cases]
  split
  · rename_i hgt
    exact hsum fun hself => by simp [hself] at hgt
  · exact hadd

/-- The index of a lane depends on the word only through the lane's mask (R65). -/
theorem indexAt_congr_mask {W : Nat} {t : RoundTable W} {x y : DataWord} {i : Nat} (h : maskAt t y i = maskAt t x i) :
    indexAt t y i = indexAt t x i := by
  rw [indexAt, h, indexAt]

theorem table4_partner_lt (r : Round4) : ∀ i < 4, (table4 r).p i < 4 := by cases r <;> decide

theorem table4_add_mask (r : Round4) : ∀ i < 4, (table4 r).p i ≠ i →
    (table4 r).c i + (table4 r).k i = BitVec.ofNat 32 (min i ((table4 r).p i)) := by
  cases r <;> decide

theorem indexAt_table4 (r : Round4) (x : DataWord) {i : Nat} (hi : i < 4) :
    indexAt (table4 r) x i = BitVec.ofNat 32 (min i ((table4 r).p i)) ∨
      indexAt (table4 r) x i = BitVec.ofNat 32 (max i ((table4 r).p i)) := by
  rw [indexAt_eq_ite_min_max x (table4_add r i hi) (table4_add_mask r i hi)]
  exact ite_eq_or_eq ..

/-- A lane number of 4w32b needs the two low bits only. -/
theorem highBits_of_lane4 : ∀ j < 4, (BitVec.ofNat 32 j).extractLsb' 2 30 = 0#30 := by decide

/-- Settles O11: an index is a lane of its pair, and lanes are below 4. -/
theorem index4StaysInThePair : Obligations.Index4StaysInThePair := by
  intro r x i hi
  have hp := table4_partner_lt r i hi
  have hpair := indexAt_table4 r x hi
  refine ⟨hpair, ?_, fun y => indexAt_congr_mask⟩
  rcases hpair with h | h
  · rw [h]
    exact highBits_of_lane4 _ (by omega)
  · rw [h]
    exact highBits_of_lane4 _ (by omega)

/-! ### Ties -/

/-- A lane whose partner holds the same value: its mask is 0, its index selects the higher lane of the pair, and the
value stays (R75, R100). -/
theorem tied_lane {W : Nat} (idxBits : Nat) {t : RoundTable W} {x : DataWord} {i : Nat}
    (hsel : selectedLane idxBits (t.c i) = max i (t.p i)) (htie : lane W x i = lane W x (t.p i)) :
    maskAt t x i = 0#W ∧ selectedLane idxBits (indexAt t x i) = max i (t.p i) ∧ casLane t x i = lane W x i := by
  have hmask : maskAt t x i = 0#W := by
    rw [maskAt, ← htie]
    exact laneMask_of_not_gt (lt_irrefl _)
  refine ⟨hmask, ?_, ?_⟩
  · rw [indexAt, hmask, BitVec.zero_and, BitVec.add_zero, hsel]
  · simp [casLane, ← htie]

/-- Both lanes of a pair that holds one value twice (R75, R100). -/
theorem tied_pair {W : Nat} (idxBits : Nat) {t : RoundTable W} {x : DataWord} {i : Nat} (hlt : i < t.p i)
    (hinv : t.p (t.p i) = i) (hlow : selectedLane idxBits (t.c i) = max i (t.p i))
    (hhigh : selectedLane idxBits (t.c (t.p i)) = max (t.p i) (t.p (t.p i))) (htie : lane W x i = lane W x (t.p i)) :
    maskAt t x i = 0#W ∧ maskAt t x (t.p i) = 0#W ∧ selectedLane idxBits (indexAt t x i) = t.p i ∧
      selectedLane idxBits (indexAt t x (t.p i)) = t.p i ∧ casLane t x i = lane W x i ∧
      casLane t x (t.p i) = lane W x i := by
  obtain ⟨hm, hs, hv⟩ := tied_lane idxBits hlow htie
  obtain ⟨hm', hs', hv'⟩ := tied_lane idxBits (x := x) hhigh (by rw [hinv, htie])
  rw [hinv, max_eq_left hlt.le] at hs'
  exact ⟨hm, hm', hs.trans (max_eq_right hlt.le), hs', hv, hv'.trans htie.symm⟩

theorem selectedLane_table4_add (r : Round4) :
    ∀ i < 4, selectedLane 2 ((table4 r).c i) = max i ((table4 r).p i) := by
  cases r <;> decide

theorem table6_partner_lt (r : Round6) : ∀ i < 16, (table6 r).p i < 16 := by cases r <;> decide

theorem table6_involution (r : Round6) : ∀ i < 16, (table6 r).p ((table6 r).p i) = i := by cases r <;> decide

theorem selectedLane_table6_add (r : Round6) :
    ∀ i < 16, selectedLane 4 ((table6 r).c i) = max i ((table6 r).p i) := by
  cases r <;> decide

/-- Settles O13: at both blocks the lanes of a round are `casLane`, and its add vector names the higher lane of each
pair, so `tied_pair` applies. -/
theorem tiedLanesSelectTheSameValue : Obligations.TiedLanesSelectTheSameValue := by
  constructor
  · intro r x i hi hlt htie
    have hp := table4_partner_lt r i hi
    rw [lane_round4 r x hi, lane_round4 r x hp]
    exact tied_pair 2 hlt (table4_involution r i hi) (selectedLane_table4_add r i hi)
      (selectedLane_table4_add r _ hp) htie
  · intro r x i hi hlt htie
    have hp := table6_partner_lt r i hi
    rw [lane_round6 r x hi, lane_round6 r x hp]
    exact tied_pair 4 hlt (table6_involution r i hi) (selectedLane_table6_add r i hi)
      (selectedLane_table6_add r _ hp) htie

end Sys2Proof.Machine
end

section
/-! PROOFS. What the sorting of the networks gives: `NET4` (R72, R76, R77), and the outputs of every run (R72, R95,
R121). -/

namespace Sys2Proof.Machine

/-! ### The outputs of a run -/

theorem exists_step_of_runsTo_succ {n : Nat} {s u : State} (h : RunsTo (n + 1) s u) :
    ∃ t, step s = .next t ∧ RunsTo n t u := by
  cases hs : step s with
  | next t => exact ⟨t, rfl, (runsTo_succ hs).1 h⟩
  | fault r => cases r
  | refused r =>
    simp only [RunsTo, Host.Core.run] at h
    rw [show Sys2Proof.core.step s = .refused r from hs] at h
    cases h

/-- A run keeps the invariant, since each of its steps does (O44). -/
theorem MachineInv.after_run {n : Nat} {s t : State} (h : MachineInv s) (hrun : RunsTo n s t) : MachineInv t := by
  induction n generalizing s with
  | zero => exact runsTo_zero.1 hrun ▸ h
  | succ n ih =>
    obtain ⟨u, hstep, hrest⟩ := exists_step_of_runsTo_succ hrun
    exact ih (stepKeepsInv s u h hstep) hrest

theorem net_activeLanesSorted (b : Block) (d : DataWord) : activeLanesSorted b (net b d) := by
  cases b with
  | sn4w32b =>
    show NonDescending (lanes 32 4 (net4 d))
    rw [lanes_net4_eq_sortedW]
    exact sortedW_nonDescending _
  | sn6w8b =>
    show NonDescending (lanes 8 6 (net6 d))
    rw [activeLanes_net6_eq_sortedW]
    exact sortedW_nonDescending _

/-- The last stage of a booted block, where it is full, is the network's word of some beat (R68, R91). -/
theorem MachineInv.outData_eq_net {s : State} (h : MachineInv s) {b : Block} (hb : s.booted b = true)
    (hv : outValid b s = true) : ∃ d, outData b s = net b d := by
  obtain ⟨h4, h6⟩ := h
  cases b with
  | sn4w32b =>
    obtain ⟨-, -, h3⟩ := h4 hb
    exact h3 hv
  | sn6w8b =>
    obtain ⟨-, -, -, -, h5⟩ := h6 hb
    exact h5 hv

/-- Settles O45: the run's last state meets the invariant, so what a booted block shows as a beat is a network's word,
and the networks sort. -/
theorem outputsOfARunAreSorted : Obligations.OutputsOfARunAreSorted := by
  intro n s t h hrun b hb hv
  obtain ⟨d, hd⟩ := (h.after_run hrun).outData_eq_net hb hv
  rw [hd]
  exact net_activeLanesSorted b d

/-! ### `NET4` -/

/-- Settles O15: the lanes are the sorted arrangement, which is a rearrangement and in order. -/
theorem net4Sorts : Obligations.Net4Sorts := by
  intro x
  rw [lanes_net4_eq_sortedW]
  exact ⟨rfl, sortedW_perm _, sortedW_nonDescending _⟩

/-- Rearrangements of one list are sorted alike (R11). -/
theorem sortedW_eq_of_perm {W : Nat} {xs ys : List (BitVec W)} (h : xs.Perm ys) : sortedW xs = sortedW ys :=
  (sortedW_nonDescending xs).eq_of_perm (sortedW_nonDescending ys)
    ((sortedW_perm xs).trans (h.trans (sortedW_perm ys).symm))

theorem eq_of_lanes4 {x y : DataWord} (h : lanes 32 4 x = lanes 32 4 y) : x = y := by
  rw [← pack_lanes (W := 32) (n := 4) (by decide) rfl x, h, pack_lanes (by decide) rfl]

theorem net4_eq_of_perm {x y : DataWord} (h : (lanes 32 4 y).Perm (lanes 32 4 x)) : net4 y = net4 x :=
  eq_of_lanes4 (by rw [lanes_net4_eq_sortedW, lanes_net4_eq_sortedW, sortedW_eq_of_perm h])

/-- Settles O19: rearranged words have the same `NET4`, and a word's `NET4` is a rearrangement of it. -/
theorem net4IdempotentAndOrderFree : Obligations.Net4IdempotentAndOrderFree := fun x =>
  ⟨net4_eq_of_perm (net4Sorts x).2.1, fun _ => net4_eq_of_perm⟩

/-! ### Fixed words -/

/-- `NET4` by its pairs: a form whose evaluation shares the lanes between the rounds. -/
theorem net4_eq_pack (x : DataWord) : net4 x = pack 32 (casAll netPairs4 (lanes 32 4 x)) := by
  rw [← lanes_net4, pack_lanes (by decide) rfl]

/-- `NET6` by its pairs, over all sixteen lanes. -/
theorem net6_eq_pack (x : DataWord) : net6 x = pack 8 (casAll netPairs6 (lanes 8 16 x)) := by
  have hl : lanes 8 16 (net6 x) = casAll netPairs6 (lanes 8 16 x) := by
    simp only [net6, netPairs6, lanes_round6, casAll_append]
  rw [← hl, pack_lanes (by decide) rfl]

/-- Settles O22: the networks' pairs are evaluated on each word. -/
theorem cornerCasesSort : Obligations.CornerCasesSort := by
  simp only [Obligations.CornerCasesSort, net4_eq_pack, net6_eq_pack]
  decide

end Sys2Proof.Machine
end

section
/-! PROOFS. The operations of 4w32b: result, completion and frame (R69 to R71, R73), and the valid bits of both blocks as
a shift register (R70, R71, R93, R94). -/

namespace Sys2Proof.Machine

/-- Round 1 of a beat compares its first two elements and its last two (R61, R67). -/
theorem lanes_round4_r1_beat4 (e0 e1 e2 e3 : BitVec 32) :
    lanes 32 4 (round4 .r1 (beat4 e0 e1 e2 e3)) = [smin e0 e1, smax e0 e1, smin e2 e3, smax e2 e3] := by
  rw [lanes_round4, lanes_beat4]
  rfl

/-- Settles O23: SORT4 is `Block4.enter`, whose fields are the claim's, and writes no field outside the block. -/
theorem sort4EntersStageOne : Obligations.Sort4EntersStageOne := fun e0 e1 e2 e3 s =>
  ⟨s.setB4 (s.b4.enter (beat4 e0 e1 e2 e3)), rfl, rfl, lanes_round4_r1_beat4 e0 e1 e2 e3, rfl, rfl, rfl, rfl, rfl, rfl,
    rfl, rfl, rfl, rfl⟩

/-- Settles O24: NOP4 is `Block4.bubble`, written out. -/
theorem nop4PassesABubble : Obligations.Nop4PassesABubble := fun _ _ => rfl

/-- Settles O25: RST4 is `Block4.clear` and the mark, written out. -/
theorem rst4ClearsTheValidBits : Obligations.Rst4ClearsTheValidBits := fun _ _ _ => rfl

/-- Settles O30: with `rst = 0` a beat and a bubble leave the later stages as `Block4.advance` does (`b4_edgeEffect`). -/
theorem stageAdvance4 : Obligations.StageAdvance4 := by
  intro cw s hr
  refine ⟨edgeEffect .sn4w32b cw s, exec_decode_eq .sn4w32b cw s, ?_⟩
  rw [b4_edgeEffect hr]
  exact ⟨fun h => if_pos h, fun h => by simp [h], rfl, fun h => if_pos h, fun h => by simp [h], rfl⟩

/-- Settles O32: a reset word clears the valid bits, and any other word shifts its `in_valid` in. -/
theorem validBitsShiftInTheBeat : Obligations.ValidBitsShiftInTheBeat := by
  intro b cw s
  refine ⟨edgeEffect b cw s, exec_decode_eq b cw s, ?_⟩
  split
  · rename_i hr
    exact validBits_edgeEffect_of_rst hr b s
  · rename_i hr
    exact validBits_edgeEffect (Bool.eq_false_iff.2 hr) b s

end Sys2Proof.Machine
end

section
/-! PROOFS. The tables, rounds and indices of 6w8b (R81 to R90, R97, R99), and what the sorting of `NET6` gives: order,
independence from the padding and from the lanes' order, and agreement with the scalar network (R83, R95, R96, R102). -/

namespace Sys2Proof.Machine

/-! ### The rounds of 6w8b -/

/-- Settles O7: a lane of a round is `casLane` (`lane_round6`), whose three cases are the clauses. -/
theorem round6EqualsCasRound : Obligations.Round6EqualsCasRound := by
  intro r x i hi
  rw [lane_round6 r x hi]
  exact ⟨casLane_of_self x, casLane_of_lt x, casLane_of_gt x⟩

/-! ### The constant tables of 6w8b -/

theorem table6_pairs (r : Round6) : ∀ ij ∈ pairs6 r, (table6 r).p ij.1 = ij.2 ∧ (table6 r).p ij.2 = ij.1 := by
  cases r <;> decide

theorem table6_unpaired (r : Round6) :
    ∀ i < 16, (∀ ij ∈ pairs6 r, i ≠ ij.1 ∧ i ≠ ij.2) → (table6 r).p i = i := by
  cases r <;> decide

theorem table6_padding (r : Round6) : ∀ i < 16, 6 ≤ i → (table6 r).p i = i := by cases r <;> decide

theorem table6_active_partner_lt (r : Round6) : ∀ i < 6, (table6 r).p i < 6 := by cases r <;> decide

theorem table6_add (r : Round6) : ∀ i < 16, (table6 r).c i = BitVec.ofNat 8 (max i ((table6 r).p i)) := by
  cases r <;> decide

theorem table6_mask (r : Round6) : ∀ i < 16, r ≠ .r2 ∨ 6 ≤ i → (table6 r).k i = 0xFF#8 := by cases r <;> decide

/-- Settles O10: the tables are finite and are evaluated round by round. -/
theorem tables6FollowThePairs : Obligations.Tables6FollowThePairs := by
  refine ⟨table6_pairs, table6_unpaired, fun r i hi => ⟨table6_involution r i hi, table6_add r i hi⟩, table6_mask, ?_,
    table6_padding, rfl, rfl, ?_⟩
  · decide
  · decide

/-! ### Indices -/

theorem table6_add_mask (r : Round6) : ∀ i < 16, (table6 r).p i ≠ i →
    (table6 r).c i + (table6 r).k i = BitVec.ofNat 8 (min i ((table6 r).p i)) := by
  cases r <;> decide

theorem indexAt_table6 (r : Round6) (x : DataWord) {i : Nat} (hi : i < 16) :
    indexAt (table6 r) x i = BitVec.ofNat 8 (min i ((table6 r).p i)) ∨
      indexAt (table6 r) x i = BitVec.ofNat 8 (max i ((table6 r).p i)) := by
  rw [indexAt_eq_ite_min_max x (table6_add r i hi) (table6_add_mask r i hi)]
  exact ite_eq_or_eq ..

/-- The index of a lane is a lane number, below every bound that the lane and its partner are below. -/
theorem exists_lane_indexAt_table6 (r : Round6) (x : DataWord) {i n : Nat} (h16 : i < 16) (hi : i < n)
    (hp : (table6 r).p i < n) : ∃ j < n, indexAt (table6 r) x i = BitVec.ofNat 8 j := by
  rcases indexAt_table6 r x h16 with h | h
  · exact ⟨_, by omega, h⟩
  · exact ⟨_, by omega, h⟩

theorem indexAt_table6_padding (r : Round6) (x : DataWord) {i : Nat} (hi : i < 16) (hpad : 6 ≤ i) :
    indexAt (table6 r) x i = BitVec.ofNat 8 i := by
  simpa [table6_padding r i hi hpad] using indexAt_table6 r x hi

/-- A lane number of 6w8b needs the four low bits only. -/
theorem highBits_of_lane6 : ∀ j < 16, (BitVec.ofNat 8 j).extractLsb' 4 4 = 0#4 := by decide

/-- Settles O12: an index is a lane of its pair; a pair of active lanes is below 6, a padding lane is its own pair, and
all lanes are below 16. -/
theorem index6StaysInThePair : Obligations.Index6StaysInThePair := by
  intro r x i hi
  refine ⟨indexAt_table6 r x hi, fun h6 => ?_, indexAt_table6_padding r x hi, ?_⟩
  · obtain ⟨j, hj, h⟩ := exists_lane_indexAt_table6 r x hi h6 (table6_active_partner_lt r i h6)
    rw [h, BitVec.toNat_ofNat]
    omega
  · obtain ⟨j, hj, h⟩ := exists_lane_indexAt_table6 r x hi hi (table6_partner_lt r i hi)
    rw [h]
    exact highBits_of_lane6 j hj

/-! ### The padding -/

/-- The padding is the lanes 6 to 15 (R34). -/
theorem padding_eq_of_lanes {x y : DataWord} (h : ∀ i < 16, 6 ≤ i → lane 8 x i = lane 8 y i) :
    padding x = padding y := by
  apply BitVec.eq_of_getLsbD_eq
  intro k hk
  have hb := congrArg (fun v => v.getLsbD (k % 8)) (h (6 + k / 8) (by omega) (by omega))
  have hbit : 8 * (6 + k / 8) + k % 8 = 48 + k := by omega
  have h8 : k % 8 < 8 := by omega
  simp only [getLsbD_lane, hbit, h8] at hb
  simpa [padding, hk] using hb

theorem padding_round6 (r : Round6) (x : DataWord) : padding (round6 r x) = padding x :=
  padding_eq_of_lanes fun i hi hpad => by rw [lane_round6 r x hi, casLane_of_self x (table6_padding r i hi hpad)]

theorem padding_net6 (x : DataWord) : padding (net6 x) = padding x := by simp only [net6, padding_round6]

/-- Settles O18: a padding lane is its own partner in every round, so every round keeps it. -/
theorem paddingPassesThrough : Obligations.PaddingPassesThrough := fun x =>
  ⟨padding_net6 x, fun r => padding_round6 r x⟩

/-! ### `NET6` -/

/-- Settles O16 by the 0-1 principle, through the lemma on the active lanes of `NET6`. -/
theorem net6Sorts : Obligations.Net6Sorts := activeLanes_net6_eq_sortedW

/-- The active lanes are the bits 47:0 (R34). -/
theorem activeLanes_eq_of_bits {x y : DataWord} (h : ∀ k < 48, x.getLsbD k = y.getLsbD k) :
    lanes 8 6 x = lanes 8 6 y := by
  refine List.map_congr_left fun i hi => BitVec.eq_of_getLsbD_eq fun k hk => ?_
  have hi6 : i < 6 := List.mem_range.1 hi
  rw [getLsbD_lane, getLsbD_lane, h (8 * i + k) (by omega)]

/-- Settles O17: the active lanes of `NET6` are the sorted active lanes of its input. -/
theorem net6ActiveLanesIgnorePadding : Obligations.Net6ActiveLanesIgnorePadding := by
  intro x y h
  rw [activeLanes_net6_eq_sortedW, activeLanes_net6_eq_sortedW, activeLanes_eq_of_bits h]

theorem net6_eq_of_perm {x y : DataWord} (h : (lanes 8 6 y).Perm (lanes 8 6 x)) (hp : padding y = padding x) :
    net6 y = net6 x := by
  apply eq_of_lanes6_of_padding
  · rw [activeLanes_net6_eq_sortedW, activeLanes_net6_eq_sortedW, sortedW_eq_of_perm h]
  · rw [padding_net6, padding_net6, hp]

theorem activeLanes_net6_perm (x : DataWord) : (lanes 8 6 (net6 x)).Perm (lanes 8 6 x) := by
  rw [activeLanes_net6_eq_sortedW]
  exact sortedW_perm _

/-! ### The scalar networks -/

theorem scalarPairs6_sort_bools (v : List Bool) (hv : v.length = 6) :
    BoolSorted (scalarPairs6.foldl (fun ys ij => boolCas ij ys) v) := by
  match v, hv with
  | [a, b, c, d, e, f], _ => revert a b c d e f; decide

theorem scalarPair2_sorts_bools (v : List Bool) (hv : v.length = 2) :
    BoolSorted ([(0, 1)].foldl (fun ys ij => boolCas ij ys) v) := by
  match v, hv with
  | [a, b], _ => revert a b; decide

/-- Settles O21 by the 0-1 principle: each pair sequence sorts every list of truth values of its length. -/
theorem scalarNetworksSort : Obligations.ScalarNetworksSort :=
  ⟨casAll_eq_sortedW scalarPairs6 (by decide) scalarPairs6_sort_bools,
    casAll_eq_sortedW [(0, 1)] (by decide) scalarPair2_sorts_bools⟩

theorem sval_signExtend {V W : Nat} (h : V ≤ W) (b : BitVec V) : sval (b.signExtend W) = sval b := by
  rw [sval_eq_toInt, sval_eq_toInt, BitVec.toInt_signExtend_of_le h]

/-- A change of width that keeps the signed values keeps the order (R11). -/
theorem map_sortedW {V W : Nat} {f : BitVec V → BitVec W} (hf : ∀ b, sval (f b) = sval b) (xs : List (BitVec V)) :
    (sortedW xs).map f = sortedW (xs.map f) := by
  refine (sortedIsTheUniqueArrangement W _ _).2 ⟨(sortedW_perm xs).map f, ?_⟩
  simpa only [NonDescending, List.pairwise_map, hf] using sortedW_nonDescending xs

/-- Settles O20: words with rearranged active lanes and one padding have one `NET6`, and a word's `NET6` is such a word;
the scalar network sorts too, and sign extension keeps the order. -/
theorem net6IdempotentOrderFreeAndAgrees : Obligations.Net6IdempotentOrderFreeAndAgrees := by
  refine ⟨fun x => net6_eq_of_perm (activeLanes_net6_perm x) (padding_net6 x), fun _ _ => net6_eq_of_perm, fun x => ?_⟩
  rw [activeLanes_net6_eq_sortedW, map_sortedW (sval_signExtend (by decide)), scalarNetworksSort.1 _ (by simp)]

end Sys2Proof.Machine
end

section
/-! PROOFS. The operations of 6w8b: result, completion and frame (R92 to R94, R98). -/

namespace Sys2Proof.Machine

/-- Round 1 of a beat compares its elements two by two (R81, R90). -/
theorem activeLanes_round6_r1_beat6 (e0 e1 e2 e3 e4 e5 : BitVec 8) (pad : BitVec 80) :
    lanes 8 6 (round6 .r1 (beat6 e0 e1 e2 e3 e4 e5 pad)) =
      [smin e0 e1, smax e0 e1, smin e2 e3, smax e2 e3, smin e4 e5, smax e4 e5] := by
  rw [activeLanes_round6, lanes_beat6]
  rfl

/-- Settles O26: SORT6B is `Block6.enter`, whose fields are the claim's, and writes no field outside the block; round 1
passes the beat's padding through. -/
theorem sort6bEntersStageOne : Obligations.Sort6bEntersStageOne := fun e0 e1 e2 e3 e4 e5 pad s =>
  ⟨s.setB6 (s.b6.enter (beat6 e0 e1 e2 e3 e4 e5 pad)), rfl, rfl, activeLanes_round6_r1_beat6 e0 e1 e2 e3 e4 e5 pad,
    (padding_round6 .r1 _).trans (padding_beat6 e0 e1 e2 e3 e4 e5 pad), rfl, rfl, rfl, rfl, rfl, rfl, rfl, rfl,
    rfl, rfl, rfl, rfl, rfl, rfl⟩

/-- Settles O27: NOP6 is `Block6.bubble`, written out. -/
theorem nop6PassesABubble : Obligations.Nop6PassesABubble := fun _ _ => rfl

/-- Settles O28: RST6 is `Block6.clear` and the mark, written out. -/
theorem rst6ClearsTheValidBits : Obligations.Rst6ClearsTheValidBits := fun _ _ _ => rfl

/-- Settles O31: with `rst = 0` a beat and a bubble leave the later stages as `Block6.advance` does (`b6_edgeEffect`). -/
theorem stageAdvance6 : Obligations.StageAdvance6 := by
  intro cw s hr
  refine ⟨edgeEffect .sn6w8b cw s, exec_decode_eq .sn6w8b cw s, ?_⟩
  rw [b6_edgeEffect hr]
  exact ⟨rfl, rfl, rfl, rfl, rfl, rfl, rfl, rfl⟩

end Sys2Proof.Machine
end

section
/-! PROOFS. Exceptions: a block's operation leaves the other block as it was, and edges of the two commute (R115);
undefined levels (R104), a reset edge at a beat (R109), a stopped clock and a loss of power (R117, R119, R120). -/

namespace Sys2Proof.Machine

/-! ### What an operation of one block leaves (R115) -/

/-- From `s` to `t` the block that is not `b` keeps its registers and its mark (R115). -/
def OtherBlockKept (b : Block) (s t : State) : Prop :=
  (b = .sn4w32b → t.b6 = s.b6 ∧ t.booted6 = s.booted6) ∧ (b = .sn6w8b → t.b4 = s.b4 ∧ t.booted4 = s.booted4)

theorem OtherBlockKept.trans {b : Block} {s t u : State} (hst : OtherBlockKept b s t) (htu : OtherBlockKept b t u) :
    OtherBlockKept b s u := by
  obtain ⟨hst6, hst4⟩ := hst
  obtain ⟨htu6, htu4⟩ := htu
  exact ⟨fun h => ⟨(htu6 h).1.trans (hst6 h).1, (htu6 h).2.trans (hst6 h).2⟩,
    fun h => ⟨(htu4 h).1.trans (hst4 h).1, (htu4 h).2.trans (hst4 h).2⟩⟩

theorem edgeEffect_otherBlockKept (b : Block) (cw : CtrlWord) (s : State) :
    OtherBlockKept b s (edgeEffect b cw s) := by
  cases b <;> cases hr : CtrlWord.rst cw <;> simp [OtherBlockKept, edgeEffect, hr]

theorem powerOn_otherBlockKept (b : Block) (s : State) : OtherBlockKept b s (powerOn b s) := by
  cases b <;> simp [OtherBlockKept, powerOn]

/-- An operation has the effect of its own control word on its own block, from every state. -/
theorem exec_eq_edgeEffect (i : Instr) (s : State) : exec i s = .next (edgeEffect i.block (encode i) s) := by
  rw [← exec_decode_eq, decode_block_encode]

/-- Settles O34: an operation is its word's effect, which writes its own block's fields alone. -/
theorem operationLeavesTheOtherBlock : Obligations.OperationLeavesTheOtherBlock := by
  intro i s t h
  rw [exec_eq_edgeEffect, Host.Outcome.next.injEq] at h
  subst h
  obtain ⟨h6, h4⟩ := edgeEffect_otherBlockKept i.block (encode i) s
  exact ⟨h6, h4, edgeEffect_events _ _ s, edgeEffect_free _ .sn4w32b _ s, edgeEffect_free _ .sn6w8b _ s⟩

/-! ### Edges of the two blocks (R15, R115) -/

theorem State.free_setFree_of_ne {b c : Block} (h : b ≠ c) (s : State) (n : Nat) :
    (s.setFree c n).free b = s.free b :=
  match b, c, h with
  | .sn4w32b, .sn6w8b, _ => rfl
  | .sn6w8b, .sn4w32b, _ => rfl

theorem State.setFree_comm {b c : Block} (h : b ≠ c) (s : State) (m n : Nat) :
    (s.setFree c n).setFree b m = (s.setFree b m).setFree c n :=
  match b, c, h with
  | .sn4w32b, .sn6w8b, _ => rfl
  | .sn6w8b, .sn4w32b, _ => rfl

/-- What an edge with the wires `p` does to everything but the queue: the sampled word's effect, and the free values'
counter. -/
def afterEdge (b : Block) (p : Pins) (s : State) : State :=
  (edgeEffect b (p.word (Config.freeWord b (s.free b))) s).setFree b
    (if p.defined then s.free b else s.free b + 1)

theorem afterEdge_setEvents (b : Block) (p : Pins) (s : State) (es : List Event) :
    afterEdge b p (s.setEvents es) = (afterEdge b p s).setEvents es := by
  simp only [afterEdge, State.free_setEvents, edgeEffect_setEvents]
  cases b <;> rfl

theorem step_eq_afterEdge {b : Block} {p : Pins} (hd : InputsDefined b p) (s : State) (es : List Event) :
    step (s.setEvents (.edge b p :: es)) = .next ((afterEdge b p s).setEvents es) := by
  rw [step_of_edge b p es _ rfl hd, edgeEffect_setFree, ← afterEdge_setEvents]
  simp [afterEdge]

/-- An edge reads and moves no free-value counter but its own block's, so its effect is the same before and after the
other block's edge. -/
theorem afterEdge_comm {b c : Block} (h : b ≠ c) (p q : Pins) (s : State) :
    afterEdge b p (afterEdge c q s) = afterEdge c q (afterEdge b p s) := by
  simp only [afterEdge, State.free_setFree_of_ne h, State.free_setFree_of_ne h.symm, edgeEffect_free,
    edgeEffect_setFree]
  rw [edgeEffect_comm h, State.setFree_comm h]

theorem runsTo_two_edges {b c : Block} {p q : Pins} (hb : InputsDefined b p) (hc : InputsDefined c q) (s : State)
    (es : List Event) : RunsTo 2 (s.setEvents (.edge b p :: .edge c q :: es))
      ((afterEdge c q (afterEdge b p s)).setEvents es) :=
  (runsTo_succ (step_eq_afterEdge hb s _)).2 ((runsTo_succ (step_eq_afterEdge hc _ es)).2 (runsTo_zero.2 rfl))

/-- Settles O35: each run does both edges' effects, which commute, counters included. -/
theorem edgesOfDifferentBlocksCommute : Obligations.EdgesOfDifferentBlocksCommute := by
  intro b c p q es s hne hb hc
  refine ⟨_, runsTo_two_edges hb hc s es, ?_⟩
  rw [← afterEdge_comm hne]
  exact runsTo_two_edges hc hb s es

/-! ### Undefined levels (R104) -/

theorem step_of_refusal {b : Block} {p : Pins} {es : List Event} {s : State} {r : Refusal}
    (h : s.events = .edge b p :: es) (hr : p.refusal b = some r) : step s = .refused r := by
  simp [step, fetch, h, samplePins, hr]

theorem refusal_of_undefined_rst (b : Block) {p : Pins} (hr : p.rst = .undef) :
    p.refusal b = some (.undefinedRst b) := by
  simp only [Pins.refusal, hr]

theorem refusal_of_undefined_inValid (b : Block) {p : Pins} (hr : p.rst = .zero) (hv : p.inValid = .undef) :
    p.refusal b = some (.undefinedInValid b) := by
  simp only [Pins.refusal, hr, hv]

theorem refusal_of_undefined_element {b : Block} {p : Pins} (hr : p.rst = .zero) (hv : p.inValid = .one)
    (hd : ∃ k < (params b).n * (params b).w, p.inDataUndef.getLsbD k = true) :
    p.refusal b = some (.undefinedInData b) := by
  obtain ⟨k, hk, hundef⟩ := hd
  have hread : ¬ p.inDataUndef &&& readBits b = 0#128 := fun h0 => by
    simp [(undef_and_readBits b _).1 h0 k hk] at hundef
  simp only [Pins.refusal, hr, hv, hread, if_false]

/-- Settles O40: each undefined level that is read is its refusal, and where none is the edge runs (`step_of_edge`). -/
theorem undefinedLevelIsRefused : Obligations.UndefinedLevelIsRefused := fun b p es s h =>
  ⟨fun hr => step_of_refusal h (refusal_of_undefined_rst b hr),
    fun hr hv => step_of_refusal h (refusal_of_undefined_inValid b hr hv),
    fun hr hv hd => step_of_refusal h (refusal_of_undefined_element hr hv hd),
    fun hr => ⟨_, step_of_edge b p es s h (inputsDefined_of_rst hr)⟩,
    fun hr hv => ⟨_, step_of_edge b p es s h (inputsDefined_of_bubble hr hv)⟩,
    fun hr hv hd => ⟨_, step_of_edge b p es s h (inputsDefined_of_beat hr hv hd)⟩⟩

/-! ### A reset edge (R109) -/

/-- The reset operation has the effect of every reset word. -/
theorem exec_resetOf {cw : CtrlWord} (hr : CtrlWord.rst cw = true) (b : Block) (s : State) :
    exec (resetOf b) s = .next (edgeEffect b cw s) := by
  rw [exec_eq_edgeEffect]
  cases b <;> exact congrArg _ (edgeEffect_of_rst _ _ _ s (rst_ctrlWord ..) hr)

/-- Settles O36: reset words have one effect, which is the reset operation's. -/
theorem resetWinsOverABeat : Obligations.ResetWinsOverABeat := by
  intro b s v d
  have hr : CtrlWord.rst (ctrlWord true v d) = true := rst_ctrlWord ..
  exact ⟨(exec_decode_eq b _ s).trans (exec_resetOf hr b s).symm, _, exec_resetOf hr b s,
    inResetState_edgeEffect_of_rst hr b s, stageWords_edgeEffect_of_rst hr b s⟩

/-! ### A stopped clock and a loss of power (R117, R119, R120) -/

theorem step_of_noEvent {s : State} (h : s.events = []) : step s = .next s := by
  simp only [step, fetch, h]

theorem runsTo_of_noEvent {s : State} (h : s.events = []) (n : Nat) : RunsTo n s s := by
  induction n with
  | zero => exact runsTo_zero.2 rfl
  | succ n ih => exact (runsTo_succ (step_of_noEvent h)).2 ih

/-- Settles O39: without an event a step keeps the state, so every run does. -/
theorem stoppedClockKeepsEverything : Obligations.StoppedClockKeepsEverything := fun s h n =>
  ⟨runsTo_of_noEvent h n, fun _ => ⟨s, runsTo_of_noEvent h n, rfl⟩⟩

theorem step_of_powerOn {b : Block} {es : List Event} {s : State} (h : s.events = .powerOn b :: es) :
    step s = .next (powerOn b (s.setEvents es)) := by
  simp only [step, fetch, h]

theorem powerOn_events (b : Block) (s : State) : (powerOn b s).events = s.events := by
  cases b <;> simp [powerOn]

theorem powerOn_booted (b : Block) (s : State) : (powerOn b s).booted b = false := by
  cases b <;> simp [powerOn]

theorem powerOn_free_of_ne {b c : Block} (h : c ≠ b) (s : State) : (powerOn b s).free c = s.free c := by
  cases b <;> simp [powerOn, State.free_setFree_of_ne h]

/-- A reset edge leaves its block in the reset state and the other block as it was, from every state (R115, R120). -/
theorem step_resetEdge {b : Block} {cw : CtrlWord} (hr : CtrlWord.rst cw = true) {later : List Event} {s : State}
    (h : s.events = edgeOf b cw :: later) :
    ∃ t, step s = .next t ∧ InResetState b t ∧ t.events = later ∧ OtherBlockKept b s t :=
  ⟨edgeEffect b cw (s.setEvents later), (stepRunsTheDecodedOperation b cw later s h).trans (exec_decode_eq ..),
    inResetState_edgeEffect_of_rst hr b _, edgeEffect_events .., edgeEffect_otherBlockKept b cw (s.setEvents later)⟩

/-- Settles O42: neither the loss of power nor the reset edge after it writes a field of the other block. -/
theorem powerLossKeepsTheOtherBlock : Obligations.PowerLossKeepsTheOtherBlock := by
  intro b es s h
  have hkept : OtherBlockKept b s (powerOn b (s.setEvents es)) := powerOn_otherBlockKept b (s.setEvents es)
  have hevents : (powerOn b (s.setEvents es)).events = es := powerOn_events b (s.setEvents es)
  have hfree {c : Block} (hc : c ≠ b) : (powerOn b (s.setEvents es)).free c = s.free c :=
    (powerOn_free_of_ne hc _).trans (State.free_setEvents s es c)
  refine ⟨_, step_of_powerOn h, hevents, powerOn_booted b _, ?_, ?_, ?_⟩
  · rintro rfl
    obtain ⟨hregs, hmark⟩ := hkept.1 rfl
    exact ⟨hregs, hmark, hfree (c := .sn6w8b) (by decide)⟩
  · rintro rfl
    obtain ⟨hregs, hmark⟩ := hkept.2 rfl
    exact ⟨hregs, hmark, hfree (c := .sn4w32b) (by decide)⟩
  · intro v d later hes
    obtain ⟨u, hstep, hreset, hlater, hkept'⟩ := step_resetEdge (rst_ctrlWord true v d) (hevents.trans hes)
    obtain ⟨h6, h4⟩ := hkept.trans hkept'
    exact ⟨u, hstep, hreset, hlater, h6, h4⟩

end Sys2Proof.Machine
end

section
/-! PROOFS. The observation of a run in closed form (R129): first the beats in flight at its start that no reset
discards, then the beats of its own words (R43, R121, R124). -/

namespace Sys2Proof.Machine

/-! ### The beats in flight

`held` gives each stage but the last what it will put on the outputs: the rounds still to come are done on its word. -/

/-- A word where its valid bit is 1. -/
def beatOf (v : Bool) (w : DataWord) : Option DataWord := if v then some w else none

/-- What a block's outputs show in the present cycle (R22, R23). -/
def shown (b : Block) (s : State) : Option DataWord := beatOf (outValid b s) (outData b s)

/-- What the stages before the last will show, the next to come first, if no reset comes (R70, R93). -/
def held : Block → State → List (Option DataWord)
  | .sn4w32b, s => [(beatOf s.b4.v2 s.b4.s2).map (round4 .r3), (beatOf s.b4.v1 s.b4.s1).map (round4 .r3 ∘ round4 .r2)]
  | .sn6w8b, s =>
    [(beatOf s.b6.qv4 s.b6.q4).map (round6 .r5), (beatOf s.b6.qv3 s.b6.q3).map (round6 .r5 ∘ round6 .r4),
      (beatOf s.b6.qv2 s.b6.q2).map ((round6 .r5 ∘ round6 .r4) ∘ round6 .r3),
      (beatOf s.b6.qv1 s.b6.q1).map (((round6 .r5 ∘ round6 .r4) ∘ round6 .r3) ∘ round6 .r2)]

@[simp] theorem beatOf_true (w : DataWord) : beatOf true w = some w := rfl

@[simp] theorem beatOf_false (w : DataWord) : beatOf false w = none := rfl

/-- A stage that loads where its new valid bit is 1 holds the old beat, one round on. -/
theorem beatOf_load (f : DataWord → DataWord) (v : Bool) (w kept : DataWord) :
    beatOf v (if v then f w else kept) = (beatOf v w).map f := by cases v <;> rfl

/-! The networks in the form of `held`, each round composed to the right of those that come after it. -/

theorem net_sn4w32b_eq_comp : net .sn4w32b = (round4 .r3 ∘ round4 .r2) ∘ round4 .r1 := by
  funext x
  simp only [net, net4, Function.comp_apply]

theorem net_sn6w8b_eq_comp : net .sn6w8b = (((round6 .r5 ∘ round6 .r4) ∘ round6 .r3) ∘ round6 .r2) ∘ round6 .r1 := by
  funext x
  simp only [net, net6, Function.comp_apply]

theorem length_held (b : Block) (s : State) : (held b s).length = latency b - 1 := by cases b <;> rfl

theorem held_of_noBeatInFlight {b : Block} {s : State} (h : NoBeatInFlight b s) :
    held b s = List.replicate (latency b - 1) none := by
  cases b with
  | sn4w32b =>
    obtain ⟨h1, h2, -⟩ : s.b4.v1 = false ∧ s.b4.v2 = false ∧ s.b4.v3 = false := by
      simpa [NoBeatInFlight, validBits] using h
    simp only [held, h1, h2]
    rfl
  | sn6w8b =>
    obtain ⟨h1, h2, h3, h4, -⟩ : s.b6.qv1 = false ∧ s.b6.qv2 = false ∧ s.b6.qv3 = false ∧ s.b6.qv4 = false ∧
        s.b6.qv5 = false := by simpa [NoBeatInFlight, validBits] using h
    simp only [held, h1, h2, h3, h4]
    rfl

/-- An edge with `rst = 0` shows the first of the held beats and takes the sampled one in behind the others. -/
theorem shown_cons_held_edgeEffect {cw : CtrlWord} (hr : CtrlWord.rst cw = false) (b : Block) (s : State) :
    shown b (edgeEffect b cw s) :: held b (edgeEffect b cw s) =
      held b s ++ [(beatOf (CtrlWord.inValid cw) (CtrlWord.inData cw)).map (net b)] := by
  cases b with
  | sn4w32b =>
    simp only [shown, held, outValid, outData, b4_edgeEffect hr, Block4.advance, beatOf_load, Option.map_map,
      List.cons_append, List.nil_append, net_sn4w32b_eq_comp]
  | sn6w8b =>
    simp only [shown, held, outValid, outData, b6_edgeEffect hr, Block6.advance, beatOf_load, Option.map_map,
      List.cons_append, List.nil_append, net_sn6w8b_eq_comp]

/-! ### What a run shows of the beats in flight -/

/-- The entry of a cycle in an observation (R129). -/
def seenAt (k : Nat) (o : Option DataWord) : List (Nat × DataWord) := (o.map (k, ·)).toList

@[simp] theorem seenAt_none (k : Nat) : seenAt k none = [] := rfl

@[simp] theorem seenAt_some (k : Nat) (x : DataWord) : seenAt k (some x) = [(k, x)] := rfl

/-- What the held beats show from cycle `k` on: one a cycle, while the run lasts and no edge is a reset. -/
def seenOf : Nat → List Bool → List (Option DataWord) → List (Nat × DataWord)
  | k, rst :: resets, o :: later => if rst then [] else seenAt k o ++ seenOf (k + 1) resets later
  | _, [], _ => []
  | _, _, [] => []

@[simp] theorem seenOf_nil (k : Nat) (hs : List (Option DataWord)) : seenOf k [] hs = [] := by
  cases hs <;> rfl

/-- A reset edge discards every beat in flight (R124). -/
@[simp] theorem seenOf_reset (k : Nat) (rs : List Bool) (hs : List (Option DataWord)) :
    seenOf k (true :: rs) hs = [] := by cases hs <;> rfl

@[simp] theorem seenOf_noReset (k : Nat) (rs : List Bool) (o : Option DataWord) (hs : List (Option DataWord)) :
    seenOf k (false :: rs) (o :: hs) = seenAt k o ++ seenOf (k + 1) rs hs := rfl

@[simp] theorem seenOf_replicate_none (k : Nat) (rs : List Bool) (n : Nat) :
    seenOf k rs (List.replicate n none) = [] := by
  induction n generalizing k rs with
  | zero => cases rs <;> rfl
  | succ n ih =>
    match rs with
    | [] => rfl
    | true :: rs => rfl
    | false :: rs => simp [List.replicate_succ, ih]

/-- The last held beat is seen if that many edges come, none of them a reset. -/
theorem seenOf_append_singleton (k : Nat) (rs : List Bool) (hs : List (Option DataWord)) (o : Option DataWord) :
    seenOf k rs (hs ++ [o]) = seenOf k rs hs ++
      if rs.take (hs.length + 1) = List.replicate (hs.length + 1) false then seenAt (k + hs.length) o else [] := by
  induction hs generalizing k rs with
  | nil =>
    match rs with
    | [] => rfl
    | true :: rs => rfl
    | false :: rs => cases rs <;> simp [seenOf]
  | cons h hs ih =>
    match rs with
    | [] => rfl
    | true :: rs => rfl
    | false :: rs => simp [ih, List.replicate_succ, Nat.add_assoc, Nat.add_comm 1]

theorem cycle_lt_of_mem_seenOf {k : Nat} {rs : List Bool} {hs : List (Option DataWord)} {e : Nat × DataWord}
    (h : e ∈ seenOf k rs hs) : e.1 < k + hs.length := by
  induction hs generalizing k rs with
  | nil => cases rs <;> simp [seenOf] at h
  | cons o hs ih =>
    match rs with
    | [] => simp at h
    | true :: rs => simp at h
    | false :: rs =>
      rw [seenOf_noReset, List.mem_append] at h
      rcases h with h | h
      · obtain ⟨x, -, rfl⟩ : ∃ x, o = some x ∧ (k, x) = e := by simpa [seenAt] using h
        simp
      · have hlater := ih h
        rw [List.length_cons]
        omega

/-! ### What the rules give a run's words -/

/-- A word is a beat that reaches the outputs before the words after it end or reset the block (R121, R124). -/
abbrev ReachesOutputs (b : Block) (cw : CtrlWord) (after : List CtrlWord) : Prop :=
  isBeat cw = true ∧ (after.map CtrlWord.rst).take (latency b - 1) = List.replicate (latency b - 1) false

theorem expectedFrom_cons (b : Block) (k : Nat) (cw : CtrlWord) (after : List CtrlWord) :
    expectedFrom b k (cw :: after) =
      (if ReachesOutputs b cw after then [(k + (latency b - 1), net b (CtrlWord.inData cw))] else []) ++
        expectedFrom b (k + 1) after := by
  have hwindow (n : Nat) : ((after.take n).length = n ∧ ∀ w ∈ after.take n, CtrlWord.rst w = false) ↔
      (after.map CtrlWord.rst).take n = List.replicate n false := by
    rw [← List.map_take, List.eq_replicate_iff, List.length_map, List.forall_mem_map]
  simp only [expectedFrom, hwindow]

theorem expectedFrom_cons_of_not_reaches {b : Block} {cw : CtrlWord} {after : List CtrlWord}
    (h : ¬ ReachesOutputs b cw after) (k : Nat) :
    expectedFrom b k (cw :: after) = expectedFrom b (k + 1) after := by
  rw [expectedFrom_cons, if_neg h, List.nil_append]

theorem not_reachesOutputs_of_rst {cw : CtrlWord} (hr : CtrlWord.rst cw = true) (b : Block) (after : List CtrlWord) :
    ¬ ReachesOutputs b cw after := by simp [isBeat, hr]

/-! ### The closed form -/

/-- A driven run's first step is its first word's effect. -/
theorem step_drive_cons (b : Block) (cw : CtrlWord) (cws : List CtrlWord) (s : State) :
    step (s.drive b (cw :: cws)) = .next ((edgeEffect b cw s).drive b cws) := by
  rw [stepRunsTheDecodedOperation b cw (cws.map (edgeOf b)) _ rfl, exec_decode_eq]
  simp only [State.drive, edgeEffect_setEvents, State.setEvents_setEvents]

/-- The first cycle of an observation, and the rest of it from the state there. -/
theorem observe_drive_cons (b : Block) (n k : Nat) (cw : CtrlWord) (cws : List CtrlWord) (s : State) :
    observe b (n + 1) k (s.drive b (cw :: cws)) =
      if (edgeEffect b cw s).booted b then
        (observe b n (k + 1) ((edgeEffect b cw s).drive b cws)).map (seenAt k (shown b (edgeEffect b cw s)) ++ ·)
      else none := by
  have hseen : seenAt k (shown b (edgeEffect b cw s)) =
      if outValid b (edgeEffect b cw s) then [(k, outData b (edgeEffect b cw s))] else [] := by
    unfold shown
    cases outValid b (edgeEffect b cw s) <;> rfl
  rw [observe, step_drive_cons, hseen]
  simp only [State.drive, State.booted_setEvents, outValid_setEvents, outData_setEvents]

/-- An edge moves what is to be seen: the first of the held beats into its cycle, and the sampled one, if any, from the
expected to the held; a reset edge discards the held ones. -/
theorem seenOf_held_edgeEffect (b : Block) (cw : CtrlWord) (cws : List CtrlWord) (k : Nat) (s : State) :
    seenAt k (shown b (edgeEffect b cw s)) ++
        (seenOf (k + 1) (cws.map CtrlWord.rst) (held b (edgeEffect b cw s)) ++ expectedFrom b (k + 1) cws) =
      seenOf k ((cw :: cws).map CtrlWord.rst) (held b s) ++ expectedFrom b k (cw :: cws) := by
  cases hr : CtrlWord.rst cw with
  | true =>
    have hshown : shown b (edgeEffect b cw s) = none := by simp [shown, outValid_edgeEffect_of_rst hr]
    simp [hshown, held_of_noBeatInFlight (inResetState_edgeEffect_of_rst hr b s).2, hr,
      expectedFrom_cons_of_not_reaches (not_reachesOutputs_of_rst hr b cws)]
  | false =>
    rw [← List.append_assoc, ← seenOf_noReset, shown_cons_held_edgeEffect hr, seenOf_append_singleton,
      expectedFrom_cons, length_held, List.append_assoc, List.map_cons, hr, List.replicate_succ,
      List.take_succ_cons]
    cases hv : CtrlWord.inValid cw <;> simp [ReachesOutputs, isBeat, hr, hv]

/-- The observation of a run: it has one if the block is booted or the first word is a reset, and shows the beats in
flight at its start and then those of its words (R129). -/
theorem observe_drive (b : Block) (k : Nat) (cws : List CtrlWord) (s : State) :
    observe b cws.length k (s.drive b cws) =
      if s.booted b || (cws.map CtrlWord.rst).headD true then
        some (seenOf k (cws.map CtrlWord.rst) (held b s) ++ expectedFrom b k cws)
      else none := by
  induction cws generalizing k s with
  | nil => simp [observe, expectedFrom]
  | cons cw cws ih =>
    have hboot : (edgeEffect b cw s).booted b = (s.booted b || CtrlWord.rst cw) := by simp [edgeEffect_booted]
    rw [List.length_cons, observe_drive_cons, ih, ← seenOf_held_edgeEffect, List.map_cons, List.headD_cons, ← hboot]
    cases (edgeEffect b cw s).booted b <;> rfl

end Sys2Proof.Machine
end

section
/-! PROOFS. Resets and the beats around them: what a reset discards (R118, R124), and what is observed of a run from the
reset state, from power-on and before boot (R119 to R122, R129, R130). -/

namespace Sys2Proof.Machine

/-! ### Runs from the reset state and from a reset edge -/

/-- Settles O49: the run has an observation since the block is booted, and no beat is in flight to be seen in it. -/
theorem observationIsTheExpectedOne : Obligations.ObservationIsTheExpectedOne := by
  rintro b s cws ⟨hbooted, hempty⟩
  rw [observation, observe_drive, held_of_noBeatInFlight hempty, seenOf_replicate_none, hbooted]
  rfl

/-- A reset edge gives the run an observation and discards what was in flight, whatever the state (R119, R120). -/
theorem observation_of_rst {cw : CtrlWord} (hr : CtrlWord.rst cw = true) (b : Block) (cws : List CtrlWord) (s : State) :
    observation b (cw :: cws) s = some (expectedFrom b 0 (cw :: cws)) := by
  rw [observation, observe_drive, List.map_cons, hr, seenOf_reset, List.headD_cons, Bool.or_true]
  rfl

/-- Settles O50: after the reset edge only the words are observed, and they are the same. -/
theorem powerOnStateIsNotObserved : Obligations.PowerOnStateIsNotObserved := fun b s s' _ cws hr =>
  ⟨_, observation_of_rst hr b cws s, observation_of_rst hr b cws s'⟩

/-! ### A discarded beat (R124) -/

/-- A reset less than `LATENCY` edges after a word keeps it from the outputs. -/
theorem not_reachesOutputs_of_reset_after {b : Block} {between : List CtrlWord} (hlen : between.length < latency b - 1)
    {r : CtrlWord} (hr : CtrlWord.rst r = true) (cw : CtrlWord) (rest : List CtrlWord) :
    ¬ ReachesOutputs b cw (between ++ r :: rest) := by
  rintro ⟨-, hwindow⟩
  have hat := congrArg (·[between.length]?) hwindow
  simp [hlen, hr] at hat

/-- Every entry the rules give a run is that of one of its beats, in the beat's cycle. -/
theorem exists_beat_of_mem_expectedFrom {b : Block} {k : Nat} {cws : List CtrlWord} {e : Nat × DataWord}
    (h : e ∈ expectedFrom b k cws) :
    ∃ before cw after, cws = before ++ cw :: after ∧ e.1 = k + before.length + (latency b - 1) ∧
      ReachesOutputs b cw after := by
  induction cws generalizing k with
  | nil => simp [expectedFrom] at h
  | cons cw cws ih =>
    rw [expectedFrom_cons, List.mem_append] at h
    rcases h with h | h
    · split at h
      · rename_i hreach
        exact ⟨[], cw, cws, rfl, by simp [List.mem_singleton.1 h], hreach⟩
      · simp at h
    · obtain ⟨before, cw', after, rfl, hcycle, hreach⟩ := ih h
      exact ⟨cw :: before, cw', after, rfl, by rw [hcycle, List.length_cons]; omega, hreach⟩

/-- The cycle of a word that does not reach the outputs is not in the observation: the beats in flight at the start came
before it, and each other beat has a cycle of its own. -/
theorem not_mem_observation_of_not_reaches {b : Block} {before after : List CtrlWord} {cw : CtrlWord} {s : State}
    (h : ¬ ReachesOutputs b cw after) {o : List (Nat × DataWord)}
    (ho : observation b (before ++ cw :: after) s = some o) (out : DataWord) :
    (before.length + (latency b - 1), out) ∉ o := by
  intro hmem
  rw [observation, observe_drive] at ho
  obtain ⟨-, ho⟩ := Option.ite_none_right_eq_some.1 ho
  rw [← Option.some.inj ho] at hmem
  rcases List.mem_append.1 hmem with hmem | hmem
  · have hlt := cycle_lt_of_mem_seenOf hmem
    rw [length_held] at hlt
    simp only at hlt
    omega
  · obtain ⟨before', cw', after', heq, hcycle, hreach⟩ := exists_beat_of_mem_expectedFrom hmem
    obtain ⟨rfl, htail⟩ := List.append_inj heq (by simp only at hcycle; omega)
    obtain ⟨rfl, rfl⟩ := List.cons.inj htail
    exact h hreach

/-- Words ahead of two runs of the same resets reach the outputs in both or in neither. -/
theorem expectedFrom_append_congr {b : Block} {ws ws' : List CtrlWord}
    (hrst : ws.map CtrlWord.rst = ws'.map CtrlWord.rst) (h : ∀ k, expectedFrom b k ws = expectedFrom b k ws')
    (before : List CtrlWord) (k : Nat) : expectedFrom b k (before ++ ws) = expectedFrom b k (before ++ ws') := by
  induction before generalizing k with
  | nil => exact h k
  | cons cw before ih =>
    simp only [List.cons_append, expectedFrom_cons, ReachesOutputs, List.map_append, hrst, ih]

/-- Of a word that does not reach the outputs, only whether it is a reset is observed. -/
theorem observation_congr_of_not_reaches {b : Block} {cw cw' : CtrlWord} {after : List CtrlWord}
    (hrst : CtrlWord.rst cw = CtrlWord.rst cw') (h : ¬ ReachesOutputs b cw after) (h' : ¬ ReachesOutputs b cw' after)
    (before : List CtrlWord) (s : State) :
    observation b (before ++ cw :: after) s = observation b (before ++ cw' :: after) s := by
  have hresets : (cw :: after).map CtrlWord.rst = (cw' :: after).map CtrlWord.rst := by
    rw [List.map_cons, List.map_cons, hrst]
  have hexpected := expectedFrom_append_congr hresets (fun k => by
    rw [expectedFrom_cons_of_not_reaches h, expectedFrom_cons_of_not_reaches h']) before 0
  simp only [observation, observe_drive, List.map_append, hresets, hexpected]

/-- Settles O48: neither a beat that a reset follows in its window, nor a word at a reset edge, nor a bubble reaches the
outputs, so all that is observed of them is `rst`; and a run from a reset edge shows the rules' beats. -/
theorem resetDiscardsBeatsInFlight : Obligations.ResetDiscardsBeatsInFlight := by
  intro b s before between rest d e out v
  have hrst (v : Bool) (d : DataWord) : CtrlWord.rst (ctrlWord true v d) = true := rst_ctrlWord ..
  have hown (v : Bool) (d : DataWord) := not_reachesOutputs_of_rst (hrst v d) b rest
  refine ⟨fun hlen => ?_, ?_, fun o ho => not_mem_observation_of_not_reaches (hown true d) ho out,
    observation_of_rst (hrst v e) b rest s⟩
  · have hdiscarded (cw : CtrlWord) := not_reachesOutputs_of_reset_after hlen (hrst v e) cw rest
    exact ⟨observation_congr_of_not_reaches (by simp) (hdiscarded _) (hdiscarded _) before s,
      fun o ho => not_mem_observation_of_not_reaches (hdiscarded _) ho out⟩
  · exact observation_congr_of_not_reaches (by simp) (hown true d) (hown false 0#128) before s

/-! ### A held reset (R118) -/

/-- A reset edge after a reset edge changes nothing. -/
theorem edgeEffect_of_rst_of_rst {cw cw' : CtrlWord} (hr : CtrlWord.rst cw = true) (hr' : CtrlWord.rst cw' = true)
    (b : Block) (s : State) : edgeEffect b cw' (edgeEffect b cw s) = edgeEffect b cw s := by
  cases b <;> simp only [edgeEffect, hr, hr', if_true] <;> rfl

theorem edgeEffects_cons (b : Block) (cw : CtrlWord) (cws : List CtrlWord) (s : State) :
    edgeEffects b (cw :: cws) s = edgeEffects b cws (edgeEffect b cw s) := by
  rw [edgeEffects, List.foldl_cons, ← edgeEffects]

theorem edgeEffects_of_resets {cw : CtrlWord} (hr : CtrlWord.rst cw = true) (b : Block) {cws : List CtrlWord}
    (hrs : ∀ w ∈ cws, CtrlWord.rst w = true) (s : State) : edgeEffects b (cw :: cws) s = edgeEffect b cw s := by
  induction cws with
  | nil => rfl
  | cons w cws ih =>
    obtain ⟨hw, hcws⟩ := List.forall_mem_cons.1 hrs
    rw [edgeEffects_cons, edgeEffects_cons, edgeEffect_of_rst_of_rst hr hw, ← edgeEffects_cons, ih hcws]

/-- Settles O37: every reset edge but the first changes nothing, and the first is the reset operation. -/
theorem heldResetIsOneReset : Obligations.HeldResetIsOneReset := by
  intro b s cws hne hrs
  cases cws with
  | nil => exact absurd rfl hne
  | cons cw cws =>
    obtain ⟨hr, hrs⟩ := List.forall_mem_cons.1 hrs
    refine ⟨_, runsTo_drive b (cw :: cws) s, ?_⟩
    rw [edgeEffects_of_resets hr b hrs, exec_resetOf hr, edgeEffect_setEvents]

/-! ### Beats that come out (R121, R122) -/

/-- `LATENCY` words, the first of them a beat's, have their effects in a run of `LATENCY` steps. -/
theorem runsTo_latency_drive {b : Block} {after : List CtrlWord} (hlen : after.length = latency b - 1) (cw : CtrlWord)
    (s : State) : RunsTo (latency b) (s.drive b (cw :: after)) ((edgeEffects b (cw :: after) s).setEvents []) := by
  have hlatency : (cw :: after).length = latency b := by
    have hpos : 0 < latency b := by cases b <;> decide
    rw [List.length_cons]
    omega
  exact hlatency ▸ runsTo_drive b (cw :: after) s

/-- Settles O47: the run has its words' effects, after which the beat's word is in the last stage. -/
theorem beatAppearsAfterLatency : Obligations.BeatAppearsAfterLatency := by
  intro b s cw after hbeat hlen hr
  refine ⟨_, runsTo_latency_drive hlen cw s, ?_, ?_⟩
  · rw [outValid_setEvents, outValid_after_latency b cw after s hbeat hlen hr]
  · rw [outData_setEvents, outData_after_latency b cw after s hbeat hlen hr]

/-- With beats behind it alone, a beat reaches the outputs if there are `LATENCY-1` of them. -/
theorem reachesOutputs_of_beats (b : Block) (d : DataWord) (ds : List DataWord) :
    ReachesOutputs b (ctrlWord false true d) (ds.map (ctrlWord false true)) ↔ latency b - 1 ≤ ds.length := by
  have hresets : (ds.map (ctrlWord false true)).map CtrlWord.rst = List.replicate ds.length false := by
    simp [List.eq_replicate_iff]
  simp [ReachesOutputs, hresets, isBeat, List.take_replicate]

/-- A list of beats alone is expected beat by beat, up to the last that has `LATENCY-1` edges after it (R122). -/
theorem expectedFrom_of_beats (b : Block) (k : Nat) (ds : List DataWord) :
    expectedFrom b k (ds.map (ctrlWord false true)) =
      (List.range (ds.length - (latency b - 1))).map
        fun i => (k + i + (latency b - 1), net b (ds.getD i 0#128)) := by
  induction ds generalizing k with
  | nil => simp [expectedFrom]
  | cons d ds ih =>
    rw [List.map_cons, expectedFrom_cons, ih, List.length_cons]
    by_cases hlen : latency b - 1 ≤ ds.length
    · rw [if_pos ((reachesOutputs_of_beats b d ds).2 hlen), Nat.succ_sub hlen, List.range_succ_eq_map]
      simp [Nat.add_assoc, Nat.add_comm 1]
    · have hnone : ds.length - (latency b - 1) = 0 ∧ ds.length + 1 - (latency b - 1) = 0 := by omega
      rw [if_neg (mt (reachesOutputs_of_beats b d ds).1 hlen), hnone.1, hnone.2]
      rfl

/-- Settles O51: the observation is the expected one (O49), and every beat but the last `LATENCY-1` has edges enough
after it. -/
theorem backToBackBeatsComeOutInOrder : Obligations.BackToBackBeatsComeOutInOrder := by
  intro b s ds hs _
  rw [observationIsTheExpectedOne b s _ hs, expectedFrom_of_beats]
  simp only [Nat.zero_add]

/-! ### Before boot (R119, R130) -/

theorem observation_of_not_booted {b : Block} {s : State} (hb : s.booted b = false) {cw : CtrlWord}
    (hr : CtrlWord.rst cw = false) (cws : List CtrlWord) : observation b (cw :: cws) s = none := by
  rw [observation, observe_drive, hb, List.map_cons, List.headD_cons, hr]
  rfl

/-- A beat and the bubbles behind it boot no block. -/
theorem sortBeat_of_not_booted {b : Block} {s : State} (hb : s.booted b = false) (x : DataWord) :
    sortBeat b x s = none := by
  have hreset : (bubbles (latency b - 1)).any CtrlWord.rst = false := by
    simpa using rst_of_mem_bubbles (latency b - 1)
  rw [sortBeat_of_runsTo (runsTo_latency_drive (length_bubbles _) _ s)]
  simp [edgeEffects_booted, hb, hreset]

theorem call4_of_not_booted {s : State} (hb : s.booted .sn4w32b = false) (m : Memory) (base : Nat) :
    call4 m base s = none := by
  unfold call4
  cases load4 m base <;> simp only [sortBeat_of_not_booted hb]

theorem call6_of_not_booted {s : State} (hb : s.booted .sn6w8b = false) (m : Memory) (base : Nat) (pad : BitVec 80) :
    call6 m base pad s = none := by
  unfold call6
  cases load6 m base pad <;> simp only [sortBeat_of_not_booted hb]

/-- Settles O60: without a reset edge the mark stays as it is, and a booted block's run has the observation
`observe_drive` gives. -/
theorem noOutputIsConsumedBeforeBoot : Obligations.NoOutputIsConsumedBeforeBoot := by
  intro b s
  refine ⟨fun hb => ⟨fun cw cws hr => observation_of_not_booted hb hr cws, sortBeat_of_not_booted hb, ?_, ?_⟩,
    fun hb cws => ?_⟩
  · rintro rfl
    exact call4_of_not_booted hb
  · rintro rfl
    exact call6_of_not_booted hb
  · rw [observation, observe_drive, hb]
    exact ⟨_, rfl⟩

end Sys2Proof.Machine
end
